-- ==== Sys2Proof/Word.lean ====
section
/-! DEFINITION. The value types of spec/00_scope.md R8 (u8, u32, u64). All values are unsigned. -/

namespace Sys2Proof

/-- A byte, `u8` of R8. -/
abbrev Byte := BitVec 8

/-- A 32-bit word, `u32` of R8: the width of the accumulators, of the bus and of DATA (R7). -/
abbrev Word := BitVec 32

/-- The bit-length counter's type, `u64` of R8 (LEN_BITS = 64 in R7). -/
abbrev Len := BitVec 64

/-- A 64-byte block, BLOCK_BYTES of R7: the unit the compression step reads. -/
abbrev Block := Vector Byte 64

/-- Four accumulator words, STATE_WORDS of R7. -/
abbrev Accumulator := Vector Word 4

end Sys2Proof
end

