-- ==== Sys2Proof/Bus.lean ====
section
/-! DEFINITION. The host bus port as data: a transaction (spec/30_encoding.md R54), its response, the
inputs the outside world has (transactions and reset), and the command error codes (spec/60_exceptions.md R120). -/

namespace Sys2Proof

/-- One host bus transaction (R54): a direction, a byte offset within the 256-byte window, a size in bytes
and, for a write, the 32-bit value. -/
inductive Transaction where
  | read (off : BitVec 8) (size : Nat)
  | write (off : BitVec 8) (size : Nat) (wdata : Word)
  deriving DecidableEq, Repr

/-- An access on the bus of a platform, by its bus address: what the interconnect routes to the core whose window
holds the address (R46, R135), where it is a transaction at the window offset. -/
inductive BusAccess where
  | read (address size : Nat)
  | write (address size : Nat) (wdata : Word)
  deriving DecidableEq, Repr

/-- The bus address of an access. -/
def BusAccess.address : BusAccess → Nat
  | .read address _ => address
  | .write address _ _ => address

/-- The transaction an access is at a window offset. -/
def BusAccess.atOffset (off : BitVec 8) : BusAccess → Transaction
  | .read _ size => .read off size
  | .write _ size wdata => .write off size wdata

/-- Why a transaction is malformed (R127). The core records none of this: it is the decoder's own name for the
rejection, and the bus shows one error response for all of them. -/
inductive BusErrorCause where
  /-- The size is not 4 bytes. -/
  | badSize
  /-- The offset is not a multiple of 4. -/
  | misaligned
  /-- A read of CMD. -/
  | readOfCmd
  /-- A write to STATUS, LEN_LO, LEN_HI, DIGEST0..3 or HEX0..7. -/
  | writeToReadOnly
  /-- An offset with no register: 0x14..0x1C, 0x30..0x3C, 0x60..0xFF. -/
  | unmapped
  deriving DecidableEq, Repr

/-- What the bus answers to a transaction. -/
inductive Response where
  /-- No transaction has completed since reset (the model's own; log entry 4). -/
  | noneYet
  /-- A write completed with a normal response (R59, R121). -/
  | writeDone
  /-- A read completed and returned this value. -/
  | readData (value : Word)
  /-- The error response of a malformed access; a read returns no data (R127). -/
  | busError
  deriving DecidableEq, Repr, Inhabited

/-- What the outside world does to the core. -/
inductive HostInput where
  /-- A bus transaction. -/
  | transaction (t : Transaction)
  /-- Reset with no transaction in progress (R138). -/
  | reset
  /-- Reset applied while this transaction is in progress (R141). -/
  | resetDuring (t : Transaction)
  deriving DecidableEq, Repr

/-- The command error codes that `ERR` holds (R21, R120). -/
inductive ErrCode where
  /-- No command rejected since INIT, CLEAR_ERR or reset. -/
  | none
  /-- A well-formed UPDATE in DONE (R123). -/
  | invalidState
  /-- A malformed UPDATE word (R122). -/
  | invalidInputType
  /-- A reserved opcode, or a malformed INIT, FINALIZE or CLEAR_ERR word (R124). -/
  | illegalCommand
  deriving DecidableEq, Repr

end Sys2Proof
end

