-- ==== Sys2Proof/Syntax.lean ====
section
/-! DEFINITION. The instructions: one constructor per row of spec/opcode_table.json, in the table's order. -/

namespace Sys2Proof

/-- A host operation (R4, R54): the four command words, then the bus accesses of R55. -/
inductive Instr where
  /-- INIT, command word 0x00000001 (R65). -/
  | init
  /-- UPDATE n, command word 0x00000002 with NBYTES = n in bits 6:4 (R71). The field has three bits, so `n` is
  0..7; 5..7 is ill-formed and is rejected (R60). -/
  | update (n : Fin 8)
  /-- FINALIZE, command word 0x00000003 (R99). -/
  | finalize
  /-- CLEAR_ERR, command word 0x00000004 (R66). -/
  | clearErr
  /-- WCMD: a write of any command word to CMD (R59). The decoder gives it the words that are none of the eight
  of R57; they are rejected. -/
  | wcmd (cmd : Word)
  /-- WDATA v: a write of DATA (R67). -/
  | wdata (v : Word)
  /-- RDATA: a read of DATA (R68). -/
  | rdata
  /-- RSTATUS: a read of STATUS (R69). -/
  | rstatus
  /-- RLENLO: a read of LEN_LO (R70). -/
  | rlenlo
  /-- RLENHI: a read of LEN_HI (R70). -/
  | rlenhi
  /-- RDIGEST k: a read of DIGEST`k` (R111). -/
  | rdigest (k : Fin 4)
  /-- RHEX k: a read of HEX`k` (R114). -/
  | rhex (k : Fin 8)
  deriving DecidableEq, Repr

end Sys2Proof
end

