-- ==== Sys2Proof/WellFormed.lean ====
section
/-! DEFINITION. Which terms of `Instr` stand for one encoding of their own (spec/30_encoding.md R57, R60). -/

namespace Sys2Proof

/-- The eight exact command words of R57: INIT, UPDATE 0..4, FINALIZE, CLEAR_ERR. -/
def commandWords : List Word :=
  [0x00000001, 0x00000002, 0x00000012, 0x00000022, 0x00000032, 0x00000042, 0x00000003, 0x00000004]

/-- The well-formed instructions. UPDATE takes 0..4 bytes (R58). A WCMD is none of the eight words of R57, since
those words are the other four commands. Every other operand's type admits exactly its legal values. -/
def wellFormed : Instr → Bool
  | .init => true
  | .update n => n.val ≤ 4
  | .finalize => true
  | .clearErr => true
  | .wcmd cmd => !commandWords.contains cmd
  | .wdata _ => true
  | .rdata => true
  | .rstatus => true
  | .rlenlo => true
  | .rlenhi => true
  | .rdigest _ => true
  | .rhex _ => true

end Sys2Proof
end

