-- ==== Sys2Proof/Decode.lean ====
section
/-! DEFINITION. Decoding a bus transaction (spec/30_encoding.md R54 to R60), the encoder, and the two forms in
which spec/opcode_table.json numbers a row's bits. -/

namespace Sys2Proof

/-- The size of a transaction in bytes (R54). -/
def Transaction.size : Transaction → Nat
  | .read _ size => size
  | .write _ size _ => size

/-- The byte offset of a transaction (R54). -/
def Transaction.offset : Transaction → BitVec 8
  | .read off _ => off
  | .write off _ _ => off

/-- The 9-bit descriptor W, off[7:0] with W as bit 8 (R54). -/
def Transaction.descriptor : Transaction → BitVec 9
  | .read off _ => 0#1 ++ off
  | .write off _ _ => 1#1 ++ off

/-! ## Command words -/

/-- The field OP, bits 3:0 of a command word (R56). -/
def commandOp (cmd : Word) : BitVec 4 := cmd.extractLsb' 0 4

/-- The field NBYTES, bits 6:4 of a command word (R56, R58). -/
def commandNBytes (cmd : Word) : Fin 8 := (cmd.extractLsb' 4 3).toFin

/-- The tests of R59 that look at the command word alone, in the order of R59: the error of a malformed word, or
none for the eight words of R57. -/
def commandError (cmd : Word) : Option ErrCode :=
  if commandOp cmd = 0x2 then
    if cmd.extractLsb' 7 25 ≠ 0 ∨ 4 < (commandNBytes cmd).val then some .invalidInputType else none
  else if commandOp cmd = 0x1 ∨ commandOp cmd = 0x3 ∨ commandOp cmd = 0x4 then
    if cmd.extractLsb' 4 28 ≠ 0 then some .illegalCommand else none
  else some .illegalCommand

/-- The command a word written to CMD stands for, or the error its form is rejected with (R57, R59). -/
def decodeCommand (cmd : Word) : Except ErrCode Instr :=
  match commandError cmd with
  | some code => .error code
  | none =>
    if commandOp cmd = 0x1 then .ok .init
    else if commandOp cmd = 0x2 then .ok (.update (commandNBytes cmd))
    else if commandOp cmd = 0x3 then .ok .finalize
    else .ok .clearErr

/-! ## Bus descriptors -/

/-- A 4-byte read at `off` (R55); the reads that R127 calls malformed are rejected by name. -/
def decodeRead (off : BitVec 8) : Except BusErrorCause Instr :=
  if off.extractLsb' 0 2 ≠ 0 then .error .misaligned
  else if off = 0x00 then .error .readOfCmd
  else if off = 0x04 then .ok .rdata
  else if off = 0x08 then .ok .rstatus
  else if off = 0x0C then .ok .rlenlo
  else if off = 0x10 then .ok .rlenhi
  else if off.extractLsb' 4 4 = 0x2 then .ok (.rdigest (off.extractLsb' 2 2).toFin)
  else if off.extractLsb' 5 3 = 0x2 then .ok (.rhex (off.extractLsb' 2 3).toFin)
  else .error .unmapped

/-- A 4-byte write at `off` (R55); the writes that R127 calls malformed are rejected by name. A word written to
CMD is one of the four commands, or, where its form is rejected, WCMD (R59). -/
def decodeWrite (off : BitVec 8) (wdata : Word) : Except BusErrorCause Instr :=
  if off.extractLsb' 0 2 ≠ 0 then .error .misaligned
  else if off = 0x00 then
    match decodeCommand wdata with
    | .ok i => .ok i
    | .error _ => .ok (.wcmd wdata)
  else if off = 0x04 then .ok (.wdata wdata)
  else if off = 0x08 ∨ off = 0x0C ∨ off = 0x10 ∨ off.extractLsb' 4 4 = 0x2 ∨ off.extractLsb' 5 3 = 0x2 then
    .error .writeToReadOnly
  else .error .unmapped

/-- Decode a transaction: the instruction, or the name of what makes it a bus error (R55, R127). -/
def decode (t : Transaction) : Except BusErrorCause Instr :=
  if t.size ≠ 4 then .error .badSize
  else match t with
    | .read off _ => decodeRead off
    | .write off _ wdata => decodeWrite off wdata

/-! ## The encoder -/

/-- A command word written to CMD (R63). -/
def commandWrite (cmd : Word) : Transaction := .write 0x00 4 cmd

/-- The transaction of an instruction, from R55, R57 and the mnemonic forms of R63. -/
def encode : Instr → Transaction
  | .init => commandWrite 0x00000001
  | .update n => commandWrite (0x00000002 ||| BitVec.ofNat 32 n.val <<< 4)
  | .finalize => commandWrite 0x00000003
  | .clearErr => commandWrite 0x00000004
  | .wcmd cmd => commandWrite cmd
  | .wdata v => .write 0x04 4 v
  | .rdata => .read 0x04 4
  | .rstatus => .read 0x08 4
  | .rlenlo => .read 0x0C 4
  | .rlenhi => .read 0x10 4
  | .rdigest k => .read (0x20 + BitVec.ofNat 8 (4 * k.val)) 4
  | .rhex k => .read (0x40 + BitVec.ofNat 8 (4 * k.val)) 4

/-! ## The opcode table's bits -/

/-- The transaction an opcode-table row's bits stand for. A CMD row's 32 bits are the word written to CMD (R56). A
BUS row's 9 bits, 16 in whole bytes, are the descriptor of R54 of a 4-byte access; the table gives the write value
no bits, so it is 0 (log entry 10). -/
def tableTransaction (nbits w : Nat) : Option Transaction :=
  if nbits = 32 then
    if w < 2 ^ 32 then some (commandWrite (BitVec.ofNat 32 w)) else none
  else if nbits ≤ 16 then
    if w < 2 ^ 8 then some (.read (BitVec.ofNat 8 w) 4)
    else if w < 2 ^ 9 then some (.write (BitVec.ofNat 8 w) 4 0)
    else none
  else none

/-- The instruction the decoder reads from the bits of an opcode-table row. -/
def decodeTableWord (nbits w : Nat) : Option Instr :=
  (tableTransaction nbits w).bind fun t => (decode t).toOption

end Sys2Proof
end

