-- ==== Sys2Proof/Machine/Tables.lean ====
section
/-! DEFINITION. The constants of the core: the initial accumulator (spec/10_state.md R15) and the ROM tables K and
S (R25, R26; values in spec/42_compression.md R94 and R92). -/

namespace Sys2Proof.Machine

/-- IV, the initial value of H[0..3] (R15). -/
def iv : Accumulator := #v[0x67452301, 0xefcdab89, 0x98badcfe, 0x10325476]

/-- K[0..15], round 0 (R94). -/
def kRound0 : Vector Word 16 :=
  #v[0xd76aa478, 0xe8c7b756, 0x242070db, 0xc1bdceee, 0xf57c0faf, 0x4787c62a, 0xa8304613, 0xfd469501,
     0x698098d8, 0x8b44f7af, 0xffff5bb1, 0x895cd7be, 0x6b901122, 0xfd987193, 0xa679438e, 0x49b40821]

/-- K[16..31], round 1 (R94). -/
def kRound1 : Vector Word 16 :=
  #v[0xf61e2562, 0xc040b340, 0x265e5a51, 0xe9b6c7aa, 0xd62f105d, 0x02441453, 0xd8a1e681, 0xe7d3fbc8,
     0x21e1cde6, 0xc33707d6, 0xf4d50d87, 0x455a14ed, 0xa9e3e905, 0xfcefa3f8, 0x676f02d9, 0x8d2a4c8a]

/-- K[32..47], round 2 (R94). -/
def kRound2 : Vector Word 16 :=
  #v[0xfffa3942, 0x8771f681, 0x6d9d6122, 0xfde5380c, 0xa4beea44, 0x4bdecfa9, 0xf6bb4b60, 0xbebfbc70,
     0x289b7ec6, 0xeaa127fa, 0xd4ef3085, 0x04881d05, 0xd9d4d039, 0xe6db99e5, 0x1fa27cf8, 0xc4ac5665]

/-- K[48..63], round 3 (R94). -/
def kRound3 : Vector Word 16 :=
  #v[0xf4292244, 0x432aff97, 0xab9423a7, 0xfc93a039, 0x655b59c3, 0x8f0ccc92, 0xffeff47d, 0x85845dd1,
     0x6fa87e4f, 0xfe2ce6e0, 0xa3014314, 0x4e0811a1, 0xf7537e82, 0xbd3af235, 0x2ad7d2bb, 0xeb86d391]

/-- The constant table K[0..63] (R25, R94). -/
def kTable : Vector Word 64 := kRound0 ++ kRound1 ++ kRound2 ++ kRound3

/-- The rotation table S[r][q] (R26, R92). -/
def sTable : Vector (Vector Nat 4) 4 :=
  #v[#v[7, 12, 17, 22],
     #v[5, 9, 14, 20],
     #v[4, 11, 16, 23],
     #v[6, 10, 15, 21]]

end Sys2Proof.Machine
end

