-- ==== Sys2Proof/Machine/Compress.lean ====
section
/-! DEFINITION. The compression function engine (spec/42_compression.md): pure in the accumulator and the block,
as R79 says. The transient state of spec/10_state.md R23 is `Work`, the step index and the message words. -/

namespace Sys2Proof.Machine

/-- `rotl32(x, s)` of R9. -/
def rotl32 (x : Word) (s : Nat) : Word := (x <<< s) ||| (x >>> (32 - s))

/-- F, the mixing function of round 0 (R85). -/
def mixF (b c d : Word) : Word := (b &&& c) ||| (~~~b &&& d)

/-- G, the mixing function of round 1 (R86). -/
def mixG (b c d : Word) : Word := (b &&& d) ||| (c &&& ~~~d)

/-- H, the mixing function of round 2 (R87); not the accumulator. -/
def mixH (b c d : Word) : Word := b ^^^ c ^^^ d

/-- I, the mixing function of round 3 (R88). -/
def mixI (b c d : Word) : Word := c ^^^ (b ||| ~~~d)

/-- FUN_r: one mixing function per round (R83). -/
def mix (r : Fin 4) (b c d : Word) : Word :=
  match r with
  | 0 => mixF b c d
  | 1 => mixG b c d
  | 2 => mixH b c d
  | 3 => mixI b c d

/-- The round of a step, `i div 16` (R83). -/
def roundOf (i : Fin 64) : Fin 4 := ⟨i.val / 16, by omega⟩

/-- IDX_r(i): which message word step `i` uses (R90). -/
def messageIndex (i : Fin 64) : Fin 16 :=
  match roundOf i with
  | 0 => ⟨i.val % 16, Nat.mod_lt _ (by decide)⟩
  | 1 => ⟨(5 * i.val + 1) % 16, Nat.mod_lt _ (by decide)⟩
  | 2 => ⟨(3 * i.val + 5) % 16, Nat.mod_lt _ (by decide)⟩
  | 3 => ⟨(7 * i.val) % 16, Nat.mod_lt _ (by decide)⟩

/-- The rotation amount of step `i`, `S[r][i mod 4]` (R83, R92). -/
def rotation (i : Fin 64) : Nat := sTable[roundOf i][i.val % 4]

/-- M[j], the little-endian 32-bit words of a block (R38, R80). -/
def messageWord (blk : Block) (j : Fin 16) : Word :=
  blk[4 * j.val + 3] ++ blk[4 * j.val + 2] ++ blk[4 * j.val + 1] ++ blk[4 * j.val]

/-- The working variables a, b, c, d of one compression (R23). -/
structure Work where
  a : Word
  b : Word
  c : Word
  d : Word
  deriving DecidableEq, Repr

/-- Load the working variables from the accumulator (R81). -/
def loadWork (H : Accumulator) : Work := { a := H[0], b := H[1], c := H[2], d := H[3] }

/-- `temp` of step `i` (R82). -/
def stepTemp (blk : Block) (w : Work) (i : Fin 64) : Word :=
  w.a + mix (roundOf i) w.b w.c w.d + kTable[i] + messageWord blk (messageIndex i)

/-- Step `i` (R82): every right-hand side is a value from before the step (R96). -/
def compressStep (blk : Block) (w : Work) (i : Fin 64) : Work :=
  { a := w.d
    b := w.b + rotl32 (stepTemp blk w i) (rotation i)
    c := w.b
    d := w.c }

/-- The working variables after the steps before `n`, in increasing order (R82, R91). -/
def workAfter (H : Accumulator) (blk : Block) : Nat → Work
  | 0 => loadWork H
  | n + 1 => if h : n < 64 then compressStep blk (workAfter H blk n) ⟨n, h⟩ else workAfter H blk n

/-- Add the working variables back into the accumulator (R84). -/
def addBack (H : Accumulator) (w : Work) : Accumulator := #v[H[0] + w.a, H[1] + w.b, H[2] + w.c, H[3] + w.d]

/-- Compress(blk) (R79): the accumulator after one block. Irreducible, so that no proof unfolds 64 steps unasked. -/
@[irreducible] def compress (H : Accumulator) (blk : Block) : Accumulator := addBack H (workAfter H blk 64)

end Sys2Proof.Machine
end

