-- ==== Sys2Proof/Config.lean ====
section
/-! DEFINITION. What the spec leaves to the platform (the OPEN parameters of spec/00_scope.md R7) and the free
values it leaves unspecified. Every constant here is opaque: no proof can see its value. -/

namespace Sys2Proof

/-- How many 256-byte windows of the bus lie free below the window of a core and above that of the core before it.
R7 leaves the bases open (log entry 8). -/
opaque Config.windowGap (core : Nat) : Nat

/-- CORE_BASE of a core divided by 256. Each core has its own (R135); they are numbered in the order of their
addresses (log entry 8). -/
def Config.coreBaseIndex : Nat → Nat
  | 0 => Config.windowGap 0
  | core + 1 => Config.coreBaseIndex core + 1 + Config.windowGap (core + 1)

/-- CORE_BASE of a core: the bus address of its offset 0x00, a multiple of 256 (R7, R46, R135). -/
def Config.coreBase (core : Nat) : Nat := 256 * Config.coreBaseIndex core

/-- How many cores the platform has beside the first. N_INSTANCES is open and at least 1 (R7, R135; log entry 8). -/
opaque Config.otherInstances : Nat

/-- N_INSTANCES (R7, R135). -/
def Config.nInstances : Nat := Config.otherInstances + 1

/-- A free byte: byte `j` of the values `Buf` holds after the `draw`-th event that leaves it unspecified, in the core
with this stream of free values (R16, R65, R138; log entry 1). -/
opaque Config.freeByte (stream draw : Nat) (j : Fin 64) : Byte

/-- The 64 free bytes of one draw. -/
def Config.freeBlock (stream draw : Nat) : Block := Vector.ofFn (Config.freeByte stream draw)

/-- A free response: what a transaction that reset interrupts is answered with. R141: it "completes with no
defined response" (log entry 7). -/
opaque Config.interruptedResponse (stream draw : Nat) (t : Transaction) : Response

end Sys2Proof
end

