-- ==== Sys2Proof/Machine/State.lean ====
section
/-! DEFINITION. The machine's state: the record of spec/10_state.md R13, under the spec's own names, and the
host port beside it. Plain data. -/

namespace Sys2Proof.Machine

/-- The state between two host transactions. -/
structure State where
  /-- The accumulator words H[0..3] (R14). -/
  H : Accumulator
  /-- The block buffer Buf[0..63]; only the first `bufLen` bytes are meaningful (R16). -/
  Buf : Block
  /-- The number of meaningful bytes in `Buf`, 0..63 (R17). -/
  bufLen : Fin 64
  /-- The bits of message fed so far, modulo 2^64 (R18). -/
  bitLen : Len
  /-- The digest is complete: the instance is DONE (R19, R64). -/
  finalized : Bool
  /-- `bitLen` has wrapped at least once (R20). -/
  lenOvf : Bool
  /-- The code of the most recent rejected command (R21). -/
  ERR : ErrCode
  /-- The data-in register (R22). -/
  DATA : Word
  /-- The host inputs the port has yet to take, in port order (R49, R51). The model's own field (log entry 3). -/
  pending : List HostInput
  /-- What the bus answered to the latest transaction. The model's own field (log entry 4). -/
  response : Response
  /-- How many free values have been drawn. The model's own field (log entry 2). -/
  freeDraws : Nat
  /-- Which stream of free values this core draws from: in a platform its own number, so that nothing relates the free
  values of two cores. The model's own field, no register (R135: there is no identifier; log entry 2). -/
  freeStream : Nat
  deriving DecidableEq, Repr

/-- Reasons to stop with a fault. There is none: the spec gives every transaction an outcome after which the host
goes on, a malformed access an error response (R127, R128), and says that the core is never stuck
(spec/93_implementation_defined.md). The bus error is `Response.busError` in a next state (log entry 5). -/
inductive Fault : Type
  deriving DecidableEq, Repr

/-- Reasons to refuse an instruction. -/
inductive Refusal where
  /-- An instruction without a meaning yet. Only a refused arm of `exec` raises it, and there is none: every
  instruction has its meaning. Safe: the machine stops where the hardware goes on. -/
  | notModelled (mnemonic : String)
  deriving DecidableEq, Repr

/-- The machine right after reset (R35, R138). `Buf` is unspecified: the free bytes of draw 0 (log entry 1). The
last four fields are the model's own (log entries 2, 3, 4). -/
def State.reset : State where
  H := iv
  Buf := Config.freeBlock 0 0
  bufLen := 0
  bitLen := 0
  finalized := false
  lenOvf := false
  ERR := .none
  DATA := 0x00000000
  pending := []
  response := .noneYet
  freeDraws := 1
  freeStream := 0

end Sys2Proof.Machine
end

