-- ==== Sys2Proof/Machine/Flags.lean ====
section
/-! DEFINITION. The STATUS fields (spec/10_state.md R28): their encoding, and the computation of LEN_OVF (R73). -/

namespace Sys2Proof.Machine

/-- The 2-bit code of an error (R21, R120). -/
def errBits : ErrCode → BitVec 2
  | .none => 0
  | .invalidState => 1
  | .invalidInputType => 2
  | .illegalCommand => 3

/-- STATUS: BUFLEN in 13:8, ERR in 3:2, LEN_OVF in 1, FINALIZED in 0, the reserved bits 0 (R28, R69). -/
def statusWord (s : State) : Word :=
  (BitVec.ofNat 6 s.bufLen.val ++ 0#4 ++ errBits s.ERR ++ BitVec.ofBool s.lenOvf ++
    BitVec.ofBool s.finalized : BitVec 14).setWidth 32

/-- The exact sum of the bit length and the bits of `n` more bytes (R71, R73). -/
def lengthSum (bitLen : Len) (n : Nat) : Nat := bitLen.toNat + 8 * n

/-- The counter after `n` more bytes, modulo 2^64 (R73). -/
def lengthAfter (bitLen : Len) (n : Nat) : Len := BitVec.ofNat 64 (lengthSum bitLen n)

/-- LEN_OVF after `n` more bytes: sticky, and set when the exact sum reaches 2^64 (R20, R73). -/
def lenOvfAfter (lenOvf : Bool) (bitLen : Len) (n : Nat) : Bool :=
  lenOvf || decide (2 ^ 64 ≤ lengthSum bitLen n)

end Sys2Proof.Machine
end

