-- ==== Sys2Proof/Machine/Operands.lean ====
section
/-! DEFINITION. The operand forms: byte lanes of a word (spec/44_digest.md R119), the bytes of UPDATE (R72), the
length field (R104), the digest bytes and their hexadecimal form (R110 to R114), and bus addresses (R41, R46). -/

namespace Sys2Proof.Machine

/-- Lane `j` of a word: bits 8j+7:8j (R41, R119). -/
def lane (w : Word) (j : Nat) : Byte := w.extractLsb' (8 * j) 8

/-- A word from its four lanes, lane 0 first (R41). -/
def packLanes (l0 l1 l2 l3 : Byte) : Word := l3 ++ l2 ++ l1 ++ l0

/-- The operand bytes of UPDATE n: DATA lanes 0..n-1 in lane order (R58, R72). -/
def updateBytes (data : Word) (n : Nat) : List Byte := (List.range n).map (lane data)

/-- Byte `j` of the length field: bits 8j+7:8j of L (R39, R104). -/
def lengthByte (L : Len) (j : Nat) : Byte := L.extractLsb' (8 * j) 8

/-- The eight bytes of the length field, low-order byte first (R39, R104). -/
def lengthBytes (L : Len) : List Byte := (List.range 8).map (lengthByte L)

/-- Digest byte D[t]: lane `t mod 4` of H[t div 4] (R40, R110). -/
def digestByte (H : Accumulator) (t : Fin 16) : Byte := lane H[t.val / 4] (t.val % 4)

/-- The ASCII code of the lowercase hexadecimal digit of a 4-bit value (R112). -/
def hexchr (v : BitVec 4) : Byte :=
  if v.toNat ≤ 9 then 0x30 + v.setWidth 8 else 0x61 + (v.setWidth 8 - 10)

/-- Character X[p] of the hex digest: the high nibble of D[p div 2] at even `p`, the low nibble at odd `p` (R113). -/
def hexChar (H : Accumulator) (p : Fin 32) : Byte :=
  let byte := digestByte H ⟨p.val / 2, by omega⟩
  if p.val % 2 = 0 then hexchr (byte.extractLsb' 4 4) else hexchr (byte.extractLsb' 0 4)

/-- The value of HEX`k`: character 4k in bits 7:0, up to character 4k+3 in bits 31:24 (R114). -/
def hexWord (H : Accumulator) (k : Fin 8) : Word :=
  packLanes (hexChar H ⟨4 * k.val, by omega⟩) (hexChar H ⟨4 * k.val + 1, by omega⟩)
    (hexChar H ⟨4 * k.val + 2, by omega⟩) (hexChar H ⟨4 * k.val + 3, by omega⟩)

/-- The offset of a bus address in the window of a core: none outside the 256 bytes at its CORE_BASE (R36, R46). -/
def offsetOfAddress (core address : Nat) : Option (BitVec 8) :=
  if Config.coreBase core ≤ address ∧ address < Config.coreBase core + 256 then
    some (BitVec.ofNat 8 (address - Config.coreBase core))
  else none

end Sys2Proof.Machine
end

