-- ==== Sys2Proof/Machine/Ops.lean ====
section
/-! DEFINITION. The shared operations on the state: completing a transaction, rejecting a command
(spec/60_exceptions.md R121), a bus error (R127), a new engine (spec/40_control.md R65), appending bytes
(spec/41_update.md R75), Finalize() (spec/43_finalize.md R100), reset (spec/70_reset_and_hazards.md R138, R141)
and the host port. -/

namespace Sys2Proof.Machine

/-! ## Responses and errors -/

/-- Complete the transaction with a response. -/
def State.respond (s : State) (r : Response) : State := { s with response := r }

/-- `raise Reject(code)` (R121): this is how the core takes an error. ERR takes the code and the bus write
completes normally; nothing is saved and no control is transferred (R128). -/
def State.reject (s : State) (code : ErrCode) : State := { s with ERR := code, response := .writeDone }

/-- The return from an error (R130): ERR is cleared, and nothing is restored because nothing was saved. -/
def State.clearError (s : State) : State := { s with ERR := .none }

/-- `raise BusError()` (R127): an error response and no other change. -/
def State.busError (s : State) : State := s.respond .busError

/-! ## A new engine -/

/-- INIT's effect (R65): a new engine instance. `Buf` becomes unspecified, so it holds fresh free bytes (log entry
1). DATA is not written. -/
def State.newEngine (s : State) : State :=
  { s with
    H := iv
    Buf := Config.freeBlock s.freeStream s.freeDraws
    bufLen := 0
    bitLen := 0
    finalized := false
    lenOvf := false
    ERR := .none
    freeDraws := s.freeDraws + 1 }

/-! ## The buffer controller -/

/-- AppendByte(x) (R75): write one byte; when it fills the buffer, compress it and start again at 0. -/
def State.appendByte (s : State) (x : Byte) : State :=
  let filled := s.Buf.set s.bufLen.val x s.bufLen.isLt
  if h : s.bufLen.val + 1 < 64 then
    { s with Buf := filled, bufLen := ⟨s.bufLen.val + 1, h⟩ }
  else
    { s with H := compress s.H filled, Buf := filled, bufLen := 0 }

/-- Append bytes in order. -/
def State.appendBytes (s : State) (xs : List Byte) : State := xs.foldl State.appendByte s

/-- Advance the bit length by `n` bytes (R73). -/
def State.advanceLength (s : State) (n : Nat) : State :=
  { s with bitLen := lengthAfter s.bitLen n, lenOvf := lenOvfAfter s.lenOvf s.bitLen n }

/-- An accepted UPDATE n (R71): the length first, then the bytes of DATA as it stands now (R72, R73). -/
def State.acceptUpdate (s : State) (n : Nat) : State :=
  (s.advanceLength n).appendBytes (updateBytes s.DATA n)

/-! ## Finalize -/

/-- The loop of R100, `while bufLen != 56: AppendByte(0x00)`. The first argument bounds the appends; 63 are enough
from any `bufLen` (R107). -/
def State.padZeros : Nat → State → State
  | 0, s => s
  | bound + 1, s => if s.bufLen.val = 56 then s else State.padZeros bound (s.appendByte 0x00)

/-- The eight direct writes Buf[56 + j] <- L[8j+7:8j] (R104). -/
def writeLength (buf : Block) (L : Len) : Block :=
  (List.finRange 8).foldl (fun b j => b.set (56 + j.val) (lengthByte L j.val)) buf

/-- The last compression of Finalize() (R105), with `bufLen` 0 after it (R106). -/
def State.lastBlock (s : State) : State :=
  { s with H := compress s.H s.Buf, bufLen := 0, finalized := true }

/-- Finalize() in OPEN (R100), L being `bitLen` from before the padding (R102). -/
def State.completeDigest (s : State) : State :=
  let padded := State.padZeros 64 (s.appendByte 0x80)
  { padded with Buf := writeLength padded.Buf s.bitLen }.lastBlock

/-- Finalize() (R100); in DONE it does nothing (R101). -/
def State.finalizeEngine (s : State) : State := if s.finalized then s else s.completeDigest

/-! ## Reset and the host port -/

/-- Reset (R138): the reset state, with `Buf` unspecified. The host's inputs that follow are still to come. -/
def State.applyReset (s : State) : State :=
  { State.reset with
    Buf := Config.freeBlock s.freeStream s.freeDraws
    pending := s.pending
    freeDraws := s.freeDraws + 1
    freeStream := s.freeStream }

/-- Reset during a transaction (R141): the reset state, whatever the transaction was; its response is not defined,
so it is a free value (log entry 7). -/
def State.interruptByReset (s : State) (t : Transaction) : State :=
  { s.applyReset with response := Config.interruptedResponse s.freeStream s.freeDraws t }

/-- Take the first pending host input off the port; none when the core is idle (R49, R137). -/
def State.takeInput (s : State) : Option (HostInput × State) :=
  match s.pending with
  | [] => none
  | input :: rest => some (input, { s with pending := rest })

/-- Put host inputs at the end of the port's queue. -/
def State.submit (s : State) (inputs : List HostInput) : State :=
  { s with pending := s.pending ++ inputs }

/-- Put a transaction where the next step takes it. -/
def State.submitFirst (s : State) (t : Transaction) : State :=
  { s with pending := .transaction t :: s.pending }

end Sys2Proof.Machine
end

