-- ==== Sys2Proof/Machine/Control.lean ====
section
/-! DEFINITION. INIT, CLEAR_ERR and the plain register accesses (spec/40_control.md). -/

namespace Sys2Proof.Machine

/-- INIT (R65), accepted in both phases. -/
def execInit (s : State) : Host.Outcome State Fault Refusal := .next (s.newEngine.respond .writeDone)

/-- CLEAR_ERR (R66), accepted in both phases. -/
def execClearErr (s : State) : Host.Outcome State Fault Refusal := .next (s.clearError.respond .writeDone)

/-- WDATA v (R67). -/
def execWdata (v : Word) (s : State) : Host.Outcome State Fault Refusal :=
  .next ({ s with DATA := v }.respond .writeDone)

/-- RDATA (R68). -/
def execRdata (s : State) : Host.Outcome State Fault Refusal := .next (s.respond (.readData s.DATA))

/-- RSTATUS (R69): no side effect; it does not finalize. -/
def execRstatus (s : State) : Host.Outcome State Fault Refusal :=
  .next (s.respond (.readData (statusWord s)))

/-- RLENLO (R70): bitLen[31:0]. -/
def execRlenlo (s : State) : Host.Outcome State Fault Refusal :=
  .next (s.respond (.readData (s.bitLen.extractLsb' 0 32)))

/-- RLENHI (R70): bitLen[63:32]. -/
def execRlenhi (s : State) : Host.Outcome State Fault Refusal :=
  .next (s.respond (.readData (s.bitLen.extractLsb' 32 32)))

end Sys2Proof.Machine
end

