-- ==== Sys2Proof/Machine/Finalize.lean ====
section
/-! DEFINITION. FINALIZE (spec/43_finalize.md). -/

namespace Sys2Proof.Machine

/-- FINALIZE (R99): Finalize(), accepted in both phases; a no-op in DONE (R101). -/
def execFinalize (s : State) : Host.Outcome State Fault Refusal :=
  .next (s.finalizeEngine.respond .writeDone)

end Sys2Proof.Machine
end

