-- ==== Sys2Proof/Machine/Update.lean ====
section
/-! DEFINITION. UPDATE (spec/41_update.md). -/

namespace Sys2Proof.Machine

/-- UPDATE n (R71): the form first, then the phase (R125); a rejected UPDATE changes ERR only (R121). -/
def execUpdate (n : Fin 8) (s : State) : Host.Outcome State Fault Refusal :=
  if 4 < n.val then .next (s.reject .invalidInputType)
  else if s.finalized then .next (s.reject .invalidState)
  else .next ((s.acceptUpdate n.val).respond .writeDone)

end Sys2Proof.Machine
end

