-- ==== Sys2Proof/Machine/Command.lean ====
section
/-! DEFINITION. WCMD: a write of any command word to CMD (spec/30_encoding.md R59). -/

namespace Sys2Proof.Machine

/-- WCMD cmd (R59): reject a malformed word with its code, else run the command it stands for. -/
def execWcmd (cmd : Word) (s : State) : Host.Outcome State Fault Refusal :=
  match commandError cmd with
  | some code => .next (s.reject code)
  | none =>
    if commandOp cmd = 0x1 then execInit s
    else if commandOp cmd = 0x2 then execUpdate (commandNBytes cmd) s
    else if commandOp cmd = 0x3 then execFinalize s
    else execClearErr s

end Sys2Proof.Machine
end

