-- ==== Sys2Proof/Machine/Digest.lean ====
section
/-! DEFINITION. The digest formatter's reads (spec/44_digest.md). -/

namespace Sys2Proof.Machine

/-- RDIGEST k (R111): finalize first if OPEN, then return H[k]. -/
def execRdigest (k : Fin 4) (s : State) : Host.Outcome State Fault Refusal :=
  let done := s.finalizeEngine
  .next (done.respond (.readData done.H[k]))

/-- RHEX k (R114): finalize first if OPEN, then return characters 4k..4k+3. -/
def execRhex (k : Fin 8) (s : State) : Host.Outcome State Fault Refusal :=
  let done := s.finalizeEngine
  .next (done.respond (.readData (hexWord done.H k)))

end Sys2Proof.Machine
end

