-- ==== Sys2Proof/Machine/Dispatch.lean ====
section
/-! DEFINITION. One arm per constructor of `Instr`. -/

namespace Sys2Proof.Machine

def exec (i : Instr) (s : State) : Host.Outcome State Fault Refusal :=
  match i with
  | .init => Sys2Proof.Machine.execInit s
  | .update n => Sys2Proof.Machine.execUpdate n s
  | .finalize => Sys2Proof.Machine.execFinalize s
  | .clearErr => Sys2Proof.Machine.execClearErr s
  | .wcmd cmd => Sys2Proof.Machine.execWcmd cmd s
  | .wdata v => Sys2Proof.Machine.execWdata v s
  | .rdata => Sys2Proof.Machine.execRdata s
  | .rstatus => Sys2Proof.Machine.execRstatus s
  | .rlenlo => Sys2Proof.Machine.execRlenlo s
  | .rlenhi => Sys2Proof.Machine.execRlenhi s
  | .rdigest k => Sys2Proof.Machine.execRdigest k s
  | .rhex k => Sys2Proof.Machine.execRhex k s

end Sys2Proof.Machine
end

