-- ==== Sys2Proof/Machine/Step.lean ====
section
/-! DEFINITION. One step: the port takes its next host input and the core performs it whole (spec/20_memory.md
R48, R49). -/

namespace Sys2Proof.Machine

/-- One step. With no input the core is idle and keeps its state (R137). A transaction that decodes runs its
instruction; one that does not is a bus error (R127). Reset gives the reset state (R138, R141). -/
def step (s : State) : Host.Outcome State Fault Refusal :=
  match s.takeInput with
  | none => .next s
  | some (.transaction t, taken) =>
    match decode t with
    | .ok i => exec i taken
    | .error _ => .next taken.busError
  | some (.reset, taken) => .next taken.applyReset
  | some (.resetDuring t, taken) => .next (taken.interruptByReset t)

/-- `s` with the transaction that an opcode-table row's bits stand for as the port's next input (log entry 10). -/
def State.withFetchWord (s : State) (nbits w : Nat) : State :=
  match tableTransaction nbits w with
  | some t => s.submitFirst t
  | none => s

end Sys2Proof.Machine
end

