-- ==== Sys2Proof/Machine/Platform.lean ====
section
/-! DEFINITION. A platform of N_INSTANCES independent cores, each at its own CORE_BASE (spec/60_exceptions.md R135), and
the routing of a bus access to the core whose window holds its address (spec/20_memory.md R36, R46). -/

namespace Sys2Proof.Machine

/-- The cores of a platform, by number; core `k` has its window at `Config.coreBase k`. They share no state (R135). -/
structure Platform where
  cores : List State
  deriving DecidableEq, Repr

/-- Core `k` right after reset (R138). It has a stream of free values of its own: the unspecified bytes of `Buf` of two
cores are unrelated, the model's reading of R16 and R138 for several cores (log entry 2). -/
def coreReset (k : Nat) : State :=
  { State.reset with
    Buf := Config.freeBlock k 0
    freeStream := k }

/-- A platform right after reset: N_INSTANCES cores in the reset state, each with free values of its own in the
unspecified bytes of `Buf` (R135, R138; log entries 1, 2, 8). -/
def Platform.reset : Platform := { cores := (List.range Config.nInstances).map coreReset }

/-- The core whose window holds a bus address, and the offset there; none where no window does. -/
def Platform.coreAt (p : Platform) (address : Nat) : Option (Nat × BitVec 8) :=
  (List.range p.cores.length).findSome? fun k => (offsetOfAddress k address).map fun off => (k, off)

/-- The host issues an access on the bus: the core whose window holds the address has one more input to take. An address
in no window belongs to no core, and nothing here changes (log entry 8). -/
def Platform.access (p : Platform) (a : BusAccess) : Platform :=
  match p.coreAt a.address with
  | none => p
  | some (k, off) => { cores := p.cores.modify k fun s => s.submit [.transaction (a.atOffset off)] }

/-- One step of core `k`: only that core is stepped. -/
def Platform.stepCore (p : Platform) (k : Nat) : Host.Outcome Platform Fault Refusal :=
  match p.cores[k]? with
  | none => .next p
  | some s =>
    match step s with
    | .next s' => .next { cores := p.cores.set k s' }
    | .fault r => .fault r
    | .refused r => .refused r

end Sys2Proof.Machine
end

