-- ==== Sys2Proof/Machine/Program.lean ====
section
/-! DEFINITION. The pseudo-instructions of spec/30_encoding.md R63, as the instructions they stand for. -/

namespace Sys2Proof.Machine

/-- `PUT n, v`: WDATA v then UPDATE n. -/
def put (n : Fin 5) (v : Word) : List Instr := [.wdata v, .update (n.castLE (by decide))]

/-- The chunk of up to four bytes that starts a byte string, as `PUT` takes it: its length and its bytes in the
lanes, the lanes above being 0. -/
def putChunk (m : List Byte) : List Instr :=
  put ⟨min 4 m.length, by omega⟩ (packLanes (m.getD 0 0) (m.getD 1 0) (m.getD 2 0) (m.getD 3 0))

/-- `HASHBYTES m`: one PUT for each group of four bytes and one for the rest; nothing for the empty string. -/
def hashBytes : List Byte → List Instr
  | b0 :: b1 :: b2 :: b3 :: rest => putChunk [b0, b1, b2, b3] ++ hashBytes rest
  | [] => []
  | short => putChunk short

/-- `SEED m`: INIT then HASHBYTES m. -/
def seed (m : List Byte) : List Instr := .init :: hashBytes m

/-- `READDIGEST`: RDIGEST 0 to RDIGEST 3. -/
def readDigest : List Instr := (List.finRange 4).map .rdigest

/-- `READHEX`: RHEX 0 to RHEX 7. -/
def readHex : List Instr := (List.finRange 8).map .rhex

/-- The host inputs of a list of instructions: one transaction each (R61, R63). -/
def inputsOf (program : List Instr) : List HostInput := program.map fun i => .transaction (encode i)

end Sys2Proof.Machine
end

