-- ==== Sys2Proof/Safety.lean ====
section
/-! DEFINITION. The terms claims use: the digest of a byte string written on the string as a whole
(spec/43_finalize.md R108), what it means that a state holds a message (spec/10_state.md R33, R34), and which runs a
host may trust (spec/70_reset_and_hazards.md R147). Nothing here is part of the machine. -/

namespace Sys2Proof.Machine

/-! ## The digest of a whole byte string -/

/-- The `i`-th 64-byte block of a byte string. Irreducible: `blockAt_get` says each byte. -/
@[irreducible] def blockAt (m : List Byte) (i : Nat) : Block := Vector.ofFn fun j => m.getD (64 * i + j.val) 0

/-- IV compressed in order with each of the first `floor(len(m)/64)` blocks of `m` (R33). -/
def hashBlocks (m : List Byte) : Accumulator :=
  (List.range (m.length / 64)).foldl (fun H i => compress H (blockAt m i)) iv

/-- The number `k` of zero bytes in the padding of a message of `len` bytes (R108). -/
def zeroCount (len : Nat) : Nat := (119 - len % 64) % 64

/-- The padded message `m . [0x80] . [0x00]^k . LE64(L)` with `L = 8 len(m) mod 2^64` (R102, R108). -/
def padMessage (m : List Byte) : List Byte :=
  m ++ [0x80] ++ List.replicate (zeroCount m.length) 0x00 ++ lengthBytes (BitVec.ofNat 64 (8 * m.length))

/-- The digest words of a message: its padded form, compressed from IV. -/
def digestWords (m : List Byte) : Accumulator := hashBlocks (padMessage m)

/-! ## The message a state holds -/

/-- H and the meaningful part of Buf are those of `m` in OPEN (R33). -/
structure Buffered (s : State) (m : List Byte) : Prop where
  bufLen : s.bufLen.val = m.length % 64
  H : s.H = hashBlocks m
  Buf : ∀ (j : Nat) (h : j < s.bufLen.val), s.Buf[j] = m.getD (64 * (m.length / 64) + j) 0

/-- H and bufLen are those of `m` in DONE (R34, R106). -/
structure Completed (s : State) (m : List Byte) : Prop where
  bufLen : s.bufLen = 0
  H : s.H = digestWords m

/-- The state holds the message `m` (R11) in its phase: R33 while OPEN, R34 in DONE, with the length counter and
its overflow bit (R18, R20). -/
structure Represents (s : State) (m : List Byte) : Prop where
  bitLen : s.bitLen = BitVec.ofNat 64 (8 * m.length)
  lenOvf : s.lenOvf = decide (2 ^ 64 ≤ 8 * m.length)
  inOpen : s.finalized = false → Buffered s m
  inDone : s.finalized = true → Completed s m

/-- The message after an UPDATE n: its bytes are added if it is accepted (R11, R72). -/
def messageAfterUpdate (n : Fin 8) (s : State) (m : List Byte) : List Byte :=
  if n.val ≤ 4 ∧ s.finalized = false then m ++ updateBytes s.DATA n.val else m

/-- The message after an instruction, given the message before it (R11): INIT starts an empty one, an accepted
UPDATE adds its bytes, and nothing else changes it. -/
def messageAfterInstr (i : Instr) (s : State) (m : List Byte) : List Byte :=
  match i with
  | .init => []
  | .update n => messageAfterUpdate n s m
  | .finalize => m
  | .clearErr => m
  | .wcmd cmd =>
    match decodeCommand cmd with
    | .ok .init => []
    | .ok (.update n) => messageAfterUpdate n s m
    | _ => m
  | .wdata _ => m
  | .rdata => m
  | .rstatus => m
  | .rlenlo => m
  | .rlenhi => m
  | .rdigest _ => m
  | .rhex _ => m

/-- The message after one step: reset starts an empty one too (R11). -/
def messageAfter (s : State) (m : List Byte) : List Byte :=
  match s.pending with
  | [] => m
  | .reset :: _ => []
  | .resetDuring _ :: _ => []
  | .transaction t :: _ =>
    match decode t with
    | .ok i => messageAfterInstr i s m
    | .error _ => m

/-! ## What no observation depends on -/

/-- Two states that differ at most in the bytes of `Buf` that are not meaningful (R16) and in which free values they
draw next. -/
structure Indistinguishable (s t : State) : Prop where
  H : s.H = t.H
  Buf : ∀ (j : Nat) (h : j < s.bufLen.val), s.Buf[j] = t.Buf[j]
  bufLen : s.bufLen = t.bufLen
  bitLen : s.bitLen = t.bitLen
  finalized : s.finalized = t.finalized
  lenOvf : s.lenOvf = t.lenOvf
  ERR : s.ERR = t.ERR
  DATA : s.DATA = t.DATA
  pending : s.pending = t.pending
  response : s.response = t.response

/-! ## Safe runs -/

/-- Whether the next `k` steps all take a transaction that is no bus error, and reset interrupts none of them. -/
def noBusErrorFor : Nat → State → Bool
  | 0, _ => true
  | k + 1, s =>
    match step s with
    | .next s' => s'.response != .busError && noBusErrorFor k s'
    | .fault _ => false
    | .refused _ => false

/-- A run of `k` steps whose digest a host may trust: no bus error on the way and ERR = 0 at the end (R147). -/
def safeRun (k : Nat) (s : State) : Bool :=
  noBusErrorFor k s &&
    match Host.Core.run Sys2Proof.core k s with
    | .next t => t.ERR == .none
    | .fault _ => false
    | .refused _ => false

/-- An input after which the engine instance is a new one: reset or INIT (R12, R34). -/
def startsInstance : HostInput → Bool
  | .reset => true
  | .resetDuring _ => true
  | .transaction t => t == encode .init

/-- An input that may set ERR to 0: reset, INIT or CLEAR_ERR (R21, R130). -/
def clearsError (input : HostInput) : Bool :=
  startsInstance input || input == .transaction (encode .clearErr)

/-! ## The blocks a transaction compresses -/

/-- The block an UPDATE that fills the buffer compresses: the buffered bytes, then DATA lanes in order (R72, R75). -/
def updateBlock (s : State) : Block :=
  Vector.ofFn fun j => if j.val < s.bufLen.val then s.Buf[j] else lane s.DATA (j.val - s.bufLen.val)

/-- The one block of a finalize from at most 55 buffered bytes: they, 0x80, zeros, the bit length (R100, R104). -/
def onlyFinalBlock (s : State) : Block :=
  Vector.ofFn fun j =>
    if j.val < s.bufLen.val then s.Buf[j] else if j.val = s.bufLen.val then 0x80
    else if j.val < 56 then 0x00 else lengthByte s.bitLen (j.val - 56)

/-- The first of the two blocks of a finalize from 56 to 63 buffered bytes: they, 0x80, zeros (R100, R103). -/
def firstFinalBlock (s : State) : Block :=
  Vector.ofFn fun j =>
    if j.val < s.bufLen.val then s.Buf[j] else if j.val = s.bufLen.val then 0x80 else 0x00

/-- The second of the two blocks of a finalize: 56 zeros and the bit length (R100, R104). -/
def secondFinalBlock (s : State) : Block :=
  Vector.ofFn fun j => if j.val < 56 then 0x00 else lengthByte s.bitLen (j.val - 56)

/-- The input is an UPDATE that is accepted and fills the buffer (R71, R75). -/
def fillsBuffer (s : State) (input : HostInput) : Prop :=
  s.finalized = false ∧
    ∃ n : Fin 8, n.val ≤ 4 ∧ input = .transaction (encode (.update n)) ∧ 64 ≤ s.bufLen.val + n.val

/-- The input finalizes the instance: a FINALIZE or a digest read, in OPEN (R64). -/
def finalizes (s : State) (input : HostInput) : Prop :=
  s.finalized = false ∧
    (input = .transaction (encode .finalize) ∨ (∃ k, input = .transaction (encode (.rdigest k))) ∨
      ∃ k, input = .transaction (encode (.rhex k)))

end Sys2Proof.Machine
end

