-- ==== Sys2Proof/Certificates/Slice0/Obligations.lean ====
section
/-! DEFINITION. The statements for the provers. Each docstring names the rule of spec/ it formalises. -/

open Sys2Proof Sys2Proof.Machine

/-! ## Encoding -/

/-- Decode and encode agree: every well-formed instruction, with every operand its encoding admits, is read back from
its transaction (30_encoding.md R55, R57, R63). -/
def Obligations.DecodeOfEncode : Prop :=
  ∀ i : Instr, wellFormed i = true → decode (encode i) = .ok i

/-- Every accepted transaction has one meaning: what it decodes to is well-formed and encodes to it alone. -/
def Obligations.EncodeOfDecode : Prop :=
  ∀ (t : Transaction) (i : Instr), decode t = .ok i → wellFormed i = true ∧ encode i = t

/-- The accepted descriptors of R55 and what each is: the command write (decoded by R59), WDATA, RDATA, RSTATUS,
RLENLO, RLENHI, RDIGEST k and RHEX k. -/
def Obligations.AcceptedDescriptorsDecode : Prop :=
  (∀ (cmd : Word) (i : Instr), decodeCommand cmd = .ok i → decode (.write 0x00 4 cmd) = .ok i) ∧
  (∀ (cmd : Word) (code : ErrCode), decodeCommand cmd = .error code → decode (.write 0x00 4 cmd) = .ok (.wcmd cmd)) ∧
  (∀ v : Word, decode (.write 0x04 4 v) = .ok (.wdata v)) ∧
  decode (.read 0x04 4) = .ok .rdata ∧
  decode (.read 0x08 4) = .ok .rstatus ∧
  decode (.read 0x0C 4) = .ok .rlenlo ∧
  decode (.read 0x10 4) = .ok .rlenhi ∧
  (∀ k : Fin 4, decode (.read (BitVec.ofNat 8 (0x20 + 4 * k.val)) 4) = .ok (.rdigest k)) ∧
  (∀ k : Fin 8, decode (.read (BitVec.ofNat 8 (0x40 + 4 * k.val)) 4) = .ok (.rhex k))

/-- Some words written out from the encodings of R55 and R57 decode to their instructions: one command word of each
command and one descriptor of each bus row. How a row's bits stand for a transaction, and the value 0 of the two writes
(WCMD 0, WDATA 0), are the model's choice (log entry 10): the table gives a write's value no bits. -/
def Obligations.WrittenOutWordsDecode : Prop :=
  decodeTableWord 32 0b00000000000000000000000000000001 = some .init ∧
  decodeTableWord 32 0b00000000000000000000000000110010 = some (.update 3) ∧
  decodeTableWord 32 0b00000000000000000000000000000011 = some .finalize ∧
  decodeTableWord 32 0b00000000000000000000000000000100 = some .clearErr ∧
  decodeTableWord 16 0b100000000 = some (.wcmd 0) ∧
  decodeTableWord 16 0b100000100 = some (.wdata 0) ∧
  decodeTableWord 16 0b000000100 = some .rdata ∧
  decodeTableWord 16 0b000001000 = some .rstatus ∧
  decodeTableWord 16 0b000001100 = some .rlenlo ∧
  decodeTableWord 16 0b000010000 = some .rlenhi ∧
  decodeTableWord 16 0b000101100 = some (.rdigest 3) ∧
  decodeTableWord 16 0b001010100 = some (.rhex 5)

/-- R60: every command word that is not one of the eight words of R57 is rejected: INVALID_INPUT_TYPE for OP 2, with
reserved bits set or NBYTES 5..7, ILLEGAL_COMMAND for every other OP. The eight words are not rejected. -/
def Obligations.EveryOtherCommandWordIsRejected : Prop :=
  ∀ cmd : Word,
    (cmd ∈ [(0x01 : Word), 0x02, 0x12, 0x22, 0x32, 0x42, 0x03, 0x04] → ∃ i, decodeCommand cmd = .ok i) ∧
    (cmd ∉ [(0x01 : Word), 0x02, 0x12, 0x22, 0x32, 0x42, 0x03, 0x04] →
      decodeCommand cmd = .error (if cmd.toNat % 16 = 2 then .invalidInputType else .illegalCommand) ∧
      (cmd.toNat % 16 = 2 → cmd.toNat / 128 ≠ 0 ∨ 5 ≤ cmd.toNat / 16 % 8) ∧
      (cmd.toNat % 16 = 1 ∨ cmd.toNat % 16 = 3 ∨ cmd.toNat % 16 = 4 → cmd.toNat / 16 ≠ 0))

/-! ## The step -/

/-- A step runs the decoded instruction: when the next input is a transaction that decodes to `i`, the step is `exec
i` in the state from which that input is taken (20_memory.md R48, R49). -/
def Obligations.StepRunsDecodedInstruction : Prop :=
  ∀ (s : State) (t : Transaction) (rest : List HostInput) (i : Instr),
    s.pending = .transaction t :: rest → decode t = .ok i → step s = exec i { s with pending := rest }

/-- R127: a transaction that matches none of the descriptors of R55, or whose size is not 4 bytes, has an error
response and no other effect; every other one is accepted. The first clause lists the accepted descriptors. -/
def Obligations.MalformedAccessIsBusError : Prop :=
  ∀ (s : State) (t : Transaction) (rest : List HostInput), s.pending = .transaction t :: rest →
    ((t.size ≠ 4 ∨ t.descriptor.toNat ∉
        [0x100, 0x104, 0x004, 0x008, 0x00C, 0x010, 0x020, 0x024, 0x028, 0x02C,
         0x040, 0x044, 0x048, 0x04C, 0x050, 0x054, 0x058, 0x05C]) →
      step s = .next { s with pending := rest, response := .busError }) ∧
    ((t.size = 4 ∧ t.descriptor.toNat ∈
        [0x100, 0x104, 0x004, 0x008, 0x00C, 0x010, 0x020, 0x024, 0x028, 0x02C,
         0x040, 0x044, 0x048, 0x04C, 0x050, 0x054, 0x058, 0x05C]) →
      ∃ i, decode t = .ok i ∧ step s = exec i { s with pending := rest })

/-- With no host input the core is idle and keeps its state (60_exceptions.md R137). A step without an input is the
model's choice (log entry 3). -/
def Obligations.IdleStepKeepsState : Prop :=
  ∀ s : State, s.pending = [] → step s = .next s

/-- Every input is performed, in port order, and never stops the core: a step answers a next state from which exactly
the first pending input is gone (20_memory.md R48, R49; 70_reset_and_hazards.md R150). -/
def Obligations.EveryInputCompletesInPortOrder : Prop :=
  ∀ s : State, ∃ t, step s = .next t ∧ t.pending = s.pending.tail

/-! ## Reset -/

/-- The state right after reset (10_state.md R35): every value the spec gives. `Buf` is unspecified, so nothing is
said of it. -/
def Obligations.ResetStateValues : Prop :=
  State.reset.H = #v[0x67452301, 0xefcdab89, 0x98badcfe, 0x10325476] ∧ State.reset.bufLen = 0 ∧
  State.reset.bitLen = 0 ∧ State.reset.finalized = false ∧ State.reset.lenOvf = false ∧ State.reset.ERR = .none ∧
  State.reset.DATA = 0x00000000

/-- R138: reset takes any state to the reset values, STATUS, LEN_LO and LEN_HI read 0, and the core is in OPEN with an
empty message. -/
def Obligations.ResetEventGivesResetValues : Prop :=
  ∀ (s : State) (rest : List HostInput), s.pending = .reset :: rest →
    ∃ t, step s = .next t ∧ t.H = #v[0x67452301, 0xefcdab89, 0x98badcfe, 0x10325476] ∧ t.bufLen = 0 ∧ t.bitLen = 0 ∧
      t.finalized = false ∧ t.lenOvf = false ∧ t.ERR = .none ∧ t.DATA = 0x00000000 ∧ t.pending = rest ∧
      statusWord t = 0x00000000 ∧ Represents t []

/-- R141: reset during a transaction leaves the reset values, whatever the transaction was: with any other transaction in
its place the step leaves a state that no later observation can tell apart, once the response is erased on both sides.
The response and the bytes of `Buf` are not defined, so nothing is said of them. -/
def Obligations.ResetDuringTransactionGivesResetValues : Prop :=
  ∀ (s : State) (x : Transaction) (rest : List HostInput), s.pending = .resetDuring x :: rest →
    ∃ t, step s = .next t ∧ t.H = #v[0x67452301, 0xefcdab89, 0x98badcfe, 0x10325476] ∧ t.bufLen = 0 ∧ t.bitLen = 0 ∧
      t.finalized = false ∧ t.lenOvf = false ∧ t.ERR = .none ∧ t.DATA = 0x00000000 ∧ t.pending = rest ∧
      ∀ y : Transaction, ∃ u, step { s with pending := .resetDuring y :: rest } = .next u ∧
        Indistinguishable { t with response := .noneYet } { u with response := .noneYet }

/-- R139, the spec's own inference: reset and INIT leave the same state, except that reset clears DATA and INIT keeps
it. `Buf` is unspecified after both. -/
def Obligations.ResetAndInitDifferInData : Prop :=
  ∀ (s : State) (rest : List HostInput), ∃ t u,
    step { s with pending := .reset :: rest } = .next t ∧
    step { s with pending := .transaction (encode .init) :: rest } = .next u ∧
    t.H = u.H ∧ t.bufLen = u.bufLen ∧ t.bitLen = u.bitLen ∧ t.finalized = u.finalized ∧ t.lenOvf = u.lenOvf ∧
    t.ERR = u.ERR ∧ t.pending = u.pending ∧ t.DATA = 0 ∧ u.DATA = s.DATA

/-! ## Control commands and register access -/

/-- R65: the word 0x00000001 is INIT, and INIT in any state makes a new engine instance. DATA and the port are not
written; `Buf` is unspecified. An INIT word with bits 31:4 set is rejected with ILLEGAL_COMMAND and nothing of the
above happens. -/
def Obligations.InitMakesNewEngine : Prop :=
  decodeCommand 0x00000001 = .ok .init ∧
  (∀ s : State, ∃ t, exec .init s = .next t ∧ t.H = #v[0x67452301, 0xefcdab89, 0x98badcfe, 0x10325476] ∧
    t.bufLen = 0 ∧ t.bitLen = 0 ∧ t.finalized = false ∧ t.lenOvf = false ∧ t.ERR = .none ∧
    t.DATA = s.DATA ∧ t.pending = s.pending ∧ t.response = .writeDone ∧ Represents t []) ∧
  (∀ (s : State) (cmd : Word), cmd.toNat % 16 = 1 → cmd.toNat / 16 ≠ 0 →
    exec (.wcmd cmd) s = .next { s with ERR := .illegalCommand, response := .writeDone })

/-- R66: the word 0x00000004 is CLEAR_ERR, and CLEAR_ERR clears ERR and changes nothing else, in both phases; a
CLEAR_ERR word with bits 31:4 set sets ERR to ILLEGAL_COMMAND instead. -/
def Obligations.ClearErrClearsOnlyErr : Prop :=
  decodeCommand 0x00000004 = .ok .clearErr ∧
  (∀ s : State, exec .clearErr s = .next { s with ERR := .none, response := .writeDone }) ∧
  (∀ (s : State) (cmd : Word), cmd.toNat % 16 = 4 → cmd.toNat / 16 ≠ 0 →
    exec (.wcmd cmd) s = .next { s with ERR := .illegalCommand, response := .writeDone })

/-- R67 and R68: the write 0x04 is WDATA and the read 0x04 RDATA. WDATA v writes DATA and nothing else in any phase,
and RDATA returns DATA whole and changes nothing; so a RDATA after a WDATA returns the value written. -/
def Obligations.DataWriteThenRead : Prop :=
  (∀ v : Word, decode (.write 0x04 4 v) = .ok (.wdata v)) ∧ decode (.read 0x04 4) = .ok .rdata ∧
  (∀ (s : State) (v : Word), exec (.wdata v) s = .next { s with DATA := v, response := .writeDone }) ∧
  (∀ s : State, exec .rdata s = .next { s with response := .readData s.DATA }) ∧
  (∀ (s t u : State) (v : Word), exec (.wdata v) s = .next t → exec .rdata t = .next u →
    u.response = .readData v)

/-- R28 and R69: the read 0x08 is RSTATUS, and no write there is accepted. RSTATUS returns FINALIZED in bit 0, LEN_OVF
in bit 1, ERR in bits 3:2 with the codes of R120, BUFLEN in bits 13:8 and 0 in the reserved bits, and has no side
effect. -/
def Obligations.StatusReadReturnsTheFields : Prop :=
  decode (.read 0x08 4) = .ok .rstatus ∧ (∀ v : Word, decode (.write 0x08 4 v) = .error .writeToReadOnly) ∧
  ∀ s : State, ∃ w : Word, exec .rstatus s = .next { s with response := .readData w } ∧
    w.getLsbD 0 = s.finalized ∧ w.getLsbD 1 = s.lenOvf ∧
    (w.extractLsb' 2 2).toNat =
      (match s.ERR with | .none => 0 | .invalidState => 1 | .invalidInputType => 2 | .illegalCommand => 3) ∧
    w.extractLsb' 4 4 = 0 ∧ (w.extractLsb' 8 6).toNat = s.bufLen.val ∧ w.extractLsb' 14 18 = 0

/-- R70: the reads 0x0C and 0x10 are RLENLO and RLENHI, and they return the low and the high half of the bit-length
counter, without side effect. -/
def Obligations.LengthReadsReturnTheHalves : Prop :=
  decode (.read 0x0C 4) = .ok .rlenlo ∧ decode (.read 0x10 4) = .ok .rlenhi ∧
  ∀ s : State, ∃ lo hi : Word,
    exec .rlenlo s = .next { s with response := .readData lo } ∧
    exec .rlenhi s = .next { s with response := .readData hi } ∧
    lo.toNat = s.bitLen.toNat % 2 ^ 32 ∧ hi.toNat = s.bitLen.toNat / 2 ^ 32

/-! ## UPDATE -/

/-- R71 to R73: the word 2 + 16n is UPDATE n, for n = 0..4. An accepted UPDATE n adds 8n to the bit length, sets LEN_OVF
when the exact sum reaches 2^64, and writes DATA lanes 0..n-1 to the next n places of the buffer, going on at place 0
after place 63 (R75 and R78, the latter the spec's own inference). If that fills the buffer, the full block, and it
alone, is compressed (that it is at most one is the spec's own inference in R71). Nothing else changes; that the bytes
of `Buf` beyond the new `bufLen` stay as R75 leaves them is the model's (log entry 6). NBYTES above 4 is rejected in
both phases, and an UPDATE in DONE is rejected; a rejected one changes ERR only. -/
def Obligations.UpdateFeedsDataLanes : Prop :=
  (∀ n : Fin 8, n.val ≤ 4 → decodeCommand (BitVec.ofNat 32 (2 + 16 * n.val)) = .ok (.update n)) ∧
  (∀ (s : State) (n : Fin 8), n.val ≤ 4 → s.finalized = false → ∃ t, exec (.update n) s = .next t ∧
    t.bufLen.val = (s.bufLen.val + n.val) % 64 ∧
    t.bitLen.toNat = (s.bitLen.toNat + 8 * n.val) % 2 ^ 64 ∧
    t.lenOvf = (s.lenOvf || decide (2 ^ 64 ≤ s.bitLen.toNat + 8 * n.val)) ∧
    (∀ j : Fin 64, t.Buf[j] =
      if (j.val + 64 - s.bufLen.val) % 64 < n.val
      then s.DATA.extractLsb' (8 * ((j.val + 64 - s.bufLen.val) % 64)) 8 else s.Buf[j]) ∧
    t.H = (if s.bufLen.val + n.val < 64 then s.H
      else compress s.H (Vector.ofFn fun j =>
        if j.val < s.bufLen.val then s.Buf[j] else s.DATA.extractLsb' (8 * (j.val - s.bufLen.val)) 8)) ∧
    t.finalized = false ∧ t.ERR = s.ERR ∧ t.DATA = s.DATA ∧ t.pending = s.pending ∧ t.response = .writeDone) ∧
  (∀ (s : State) (n : Fin 8), 4 < n.val →
    exec (.update n) s = .next { s with ERR := .invalidInputType, response := .writeDone }) ∧
  (∀ (s : State) (n : Fin 8), n.val ≤ 4 → s.finalized = true →
    exec (.update n) s = .next { s with ERR := .invalidState, response := .writeDone })

/-- R74: UPDATE 0 in OPEN is accepted and changes no state; in DONE it is rejected with INVALID_STATE. -/
def Obligations.UpdateZeroChangesNothing : Prop :=
  (∀ s : State, s.finalized = false → exec (.update 0) s = .next { s with response := .writeDone }) ∧
  (∀ s : State, s.finalized = true →
    exec (.update 0) s = .next { s with ERR := .invalidState, response := .writeDone })

/-- R123: every well-formed UPDATE in DONE raises INVALID_STATE, changes nothing else, and a digest read after it
returns the same digest word. -/
def Obligations.UpdateInDoneKeepsTheDigest : Prop :=
  ∀ (s : State) (n : Fin 8) (k : Fin 4), n.val ≤ 4 → s.finalized = true → ∃ t u,
    exec (.update n) s = .next t ∧ t = { s with ERR := .invalidState, response := .writeDone } ∧
    exec (.rdigest k) t = .next u ∧ u.response = .readData s.H[k]

/-! ## The compression step -/

/-- R79 to R92: one compression is 64 steps from a, b, c, d = H[0..3]. Step `i` adds the round's mixing function of b,
c, d, K[i] and the round's message word to a, rotates, adds b, and rotates the quad; then a, b, c, d are added to H.
The mixing functions, the message index and the rotation table are written out round by round. -/
def Obligations.CompressionIsSixtyFourSteps : Prop :=
  ∀ (H : Accumulator) (blk : Block), ∃ a b c d : Nat → Word,
    (a 0 = H[0] ∧ b 0 = H[1] ∧ c 0 = H[2] ∧ d 0 = H[3]) ∧
    (∀ i : Fin 64,
      a (i.val + 1) = d i.val ∧ d (i.val + 1) = c i.val ∧ c (i.val + 1) = b i.val ∧
      b (i.val + 1) = b i.val + (a i.val
        + (if i.val < 16 then (b i.val &&& c i.val) ||| (~~~(b i.val) &&& d i.val)
           else if i.val < 32 then (b i.val &&& d i.val) ||| (c i.val &&& ~~~(d i.val))
           else if i.val < 48 then b i.val ^^^ c i.val ^^^ d i.val
           else c i.val ^^^ (b i.val ||| ~~~(d i.val)))
        + kTable[i]
        + messageWord blk (Fin.ofNat 16
            (if i.val < 16 then i.val else if i.val < 32 then 5 * i.val + 1
             else if i.val < 48 then 3 * i.val + 5 else 7 * i.val))).rotateLeft
        ((if i.val < 16 then [7, 12, 17, 22] else if i.val < 32 then [5, 9, 14, 20]
          else if i.val < 48 then [4, 11, 16, 23] else [6, 10, 15, 21]).getD (i.val % 4) 0)) ∧
    compress H blk = #v[H[0] + a 64, H[1] + b 64, H[2] + c 64, H[3] + d 64]

/-- R80: message word `j` is the little-endian value of block bytes 4j to 4j+3. -/
def Obligations.MessageWordsAreLittleEndian : Prop :=
  ∀ (blk : Block) (j : Fin 16), (messageWord blk j).toNat =
    blk[4 * j.val].toNat + 2 ^ 8 * blk[4 * j.val + 1].toNat + 2 ^ 16 * blk[4 * j.val + 2].toNat +
      2 ^ 24 * blk[4 * j.val + 3].toNat

/-- R90: the message index of each step, round by round. That within each round the 16 indexes are a permutation of
0..15, so that every message word is used once, is the spec's own inference ("derived: from this table"). -/
def Obligations.EveryMessageWordOncePerRound : Prop :=
  (∀ i : Fin 64, (messageIndex i).val =
    if i.val < 16 then i.val % 16 else if i.val < 32 then (5 * i.val + 1) % 16
    else if i.val < 48 then (3 * i.val + 5) % 16 else 7 * i.val % 16) ∧
  ∀ (r : Fin 4) (j : Fin 16), ∃! i : Fin 64, i.val / 16 = r.val ∧ messageIndex i = j

/-- R9, R95: a rotation by 1..31 moves every bit and loses none. -/
def Obligations.RotationLosesNoBit : Prop :=
  ∀ (x : Word) (s : Nat), 1 ≤ s → s ≤ 31 →
    (∀ i : Nat, i < 32 → (rotl32 x s).getLsbD ((i + s) % 32) = x.getLsbD i) ∧
    rotl32 (rotl32 x s) (32 - s) = x

/-- R93: the ROM holds `floor(|sin(i+1)| × 2^32)`, the argument in radians. That each of the 64 products lies at least
0.0154 away from an integer is the spec's own inference ("derived: from a 60-digit evaluation made for this spec"). -/
def Obligations.SineTable : Prop :=
  ∀ i : Fin 64, ((kTable[i]).toNat : Int) = ⌊|Real.sin ((i.val : ℝ) + 1)| * 2 ^ 32⌋ ∧
    (0.0154 : ℝ) ≤ Int.fract (|Real.sin ((i.val : ℝ) + 1)| * 2 ^ 32) ∧
    Int.fract (|Real.sin ((i.val : ℝ) + 1)| * 2 ^ 32) ≤ 1 - 0.0154

/-! ## FINALIZE -/

/-- R99 to R107: the word 0x00000003 is FINALIZE. FINALIZE in OPEN: With `bufLen` at most 55 one block is compressed:
the buffered bytes, 0x80, zeros, and the bit length in bytes 56..63, low byte first. With 56 to 63 two blocks are: the
buffered bytes, 0x80 and zeros; then 56 zeros and the bit length. After it the instance is DONE with `bufLen` 0, and
the length, LEN_OVF, ERR and DATA are unchanged. -/
def Obligations.FinalizePadsAndCompresses : Prop :=
  decodeCommand 0x00000003 = .ok .finalize ∧
  ∀ s : State, s.finalized = false → ∃ t, exec .finalize s = .next t ∧
    (s.bufLen.val ≤ 55 → t.H = compress s.H (Vector.ofFn fun j =>
      if j.val < s.bufLen.val then s.Buf[j] else if j.val = s.bufLen.val then 0x80
      else if j.val < 56 then 0x00 else s.bitLen.extractLsb' (8 * (j.val - 56)) 8)) ∧
    (56 ≤ s.bufLen.val → t.H = compress
      (compress s.H (Vector.ofFn fun j =>
        if j.val < s.bufLen.val then s.Buf[j] else if j.val = s.bufLen.val then 0x80 else 0x00))
      (Vector.ofFn fun j => if j.val < 56 then 0x00 else s.bitLen.extractLsb' (8 * (j.val - 56)) 8)) ∧
    t.bufLen = 0 ∧ t.finalized = true ∧ t.bitLen = s.bitLen ∧ t.lenOvf = s.lenOvf ∧ t.ERR = s.ERR ∧
    t.DATA = s.DATA ∧ t.pending = s.pending ∧ t.response = .writeDone

/-- R101: FINALIZE in DONE writes no state, compresses nothing and raises no error. A FINALIZE word with bits 31:4 set
is rejected with ILLEGAL_COMMAND in both phases (R99). -/
def Obligations.FinalizeIsIdempotent : Prop :=
  (∀ s : State, s.finalized = true → exec .finalize s = .next { s with response := .writeDone }) ∧
  (∀ (s : State) (cmd : Word), cmd.toNat % 16 = 3 → cmd.toNat / 16 ≠ 0 →
    exec (.wcmd cmd) s = .next { s with ERR := .illegalCommand, response := .writeDone })

/-- R108, the spec's own inference: the padding has the least number of zero bytes that brings the length to 56 modulo
64, and the padded message is a whole number of blocks. -/
def Obligations.PaddingIsLeastAndWhole : Prop :=
  ∀ m : List Byte,
    IsLeast { k : Nat | (m.length + 1 + k) % 64 = 56 } (zeroCount m.length) ∧ (padMessage m).length % 64 = 0

/-- R97, the spec's own inference: the padded message of L bytes has `floor(L/64) + 1` blocks if L mod 64 is at most
55, and one more otherwise. -/
def Obligations.PaddedBlockCount : Prop :=
  ∀ m : List Byte,
    (m.length % 64 ≤ 55 → (padMessage m).length / 64 = m.length / 64 + 1) ∧
    (56 ≤ m.length % 64 → (padMessage m).length / 64 = m.length / 64 + 2)

/-! ## The digest formatter -/

/-- R111: the read 0x20 + 4k is RDIGEST k, which returns H[k], after a finalize if the instance is OPEN; apart from
the response it has the effect of that finalize, and in DONE none. -/
def Obligations.DigestReadReturnsWord : Prop :=
  (∀ k : Fin 4, decode (.read (BitVec.ofNat 8 (0x20 + 4 * k.val)) 4) = .ok (.rdigest k)) ∧
  (∀ (s : State) (k : Fin 4), s.finalized = true →
    exec (.rdigest k) s = .next { s with response := .readData s.H[k] }) ∧
  (∀ (s : State) (k : Fin 4), s.finalized = false → ∃ f, exec .finalize s = .next f ∧
    exec (.rdigest k) s = .next { f with response := .readData f.H[k] } ∧
    f.finalized = true ∧ f.bufLen = 0 ∧ f.ERR = s.ERR ∧ f.lenOvf = s.lenOvf)

/-- R112 to R114: the read 0x40 + 4k is RHEX k, which returns characters 4k to 4k+3 of the hex digest, character 4k+j
in lane j, after a finalize if the instance is OPEN. Character p is the code of the high nibble (p even) or the low
nibble (p odd) of digest byte p div 2, and digest byte t is byte t mod 4 of H[t div 4]. -/
def Obligations.HexReadReturnsCharacters : Prop :=
  (∀ k : Fin 8, decode (.read (BitVec.ofNat 8 (0x40 + 4 * k.val)) 4) = .ok (.rhex k)) ∧
  ∀ (s : State) (k : Fin 8), ∃ (f : State) (w : Word),
    (s.finalized = true → f = { s with response := .writeDone }) ∧ exec .finalize s = .next f ∧
    exec (.rhex k) s = .next { f with response := .readData w } ∧
    ∀ j : Fin 4,
      let p := 4 * k.val + j.val
      let byte := f.H[p / 8].toNat / 2 ^ (8 * (p / 2 % 4)) % 256
      let nibble := if p % 2 = 0 then byte / 16 else byte % 16
      w.toNat / 2 ^ (8 * j.val) % 256 = if nibble ≤ 9 then 0x30 + nibble else 0x61 + (nibble - 10)

/-- R115, the spec's own inference: the hex form is the hex of the digest bytes. Whatever the state, the two
characters that RHEX reads for digest byte t are those of the byte that RDIGEST reads. -/
def Obligations.HexIsHexOfDigest : Prop :=
  ∀ (s : State) (t : Fin 16), ∃ (u v : State) (wd wh : Word) (hi lo : Nat),
    exec (.rdigest ⟨t.val / 4, by omega⟩) s = .next u ∧ u.response = .readData wd ∧
    exec (.rhex ⟨t.val / 2, by omega⟩) s = .next v ∧ v.response = .readData wh ∧
    hi < 16 ∧ lo < 16 ∧ wd.toNat / 2 ^ (8 * (t.val % 4)) % 256 = 16 * hi + lo ∧
    wh.toNat / 2 ^ (16 * (t.val % 2)) % 256 = (if hi ≤ 9 then 0x30 + hi else 0x57 + hi) ∧
    wh.toNat / 2 ^ (16 * (t.val % 2) + 8) % 256 = (if lo ≤ 9 then 0x30 + lo else 0x57 + lo)

/-- R140, the spec's own inference: the first digest read after INIT or reset, with no UPDATE between, completes the
digest of the empty message and returns a word of it. -/
def Obligations.EmptyMessageDigest : Prop :=
  ∀ s t : State, (exec .init s = .next t ∨ (∃ rest, s.pending = .reset :: rest) ∧ step s = .next t) →
    (∀ k : Fin 4, ∃ u, exec (.rdigest k) t = .next u ∧ u.finalized = true ∧
      u.response = .readData (#v[(0xd98c1dd4 : Word), 0x04b2008f, 0x980980e9, 0x7e42f8ec][k])) ∧
    (∀ k : Fin 8, ∃ u, exec (.rhex k) t = .next u ∧ u.finalized = true ∧
      u.response = .readData (#v[(0x64313464 : Word), 0x39646338, 0x30306638, 0x34303262, 0x30383965, 0x38393930,
        0x38666365, 0x65373234][k]))

/-! ## Errors -/

/-- R121: a rejected command has exactly one effect, `ERR <- code`, and the bus write completes normally: a malformed
word in either phase, and a well-formed UPDATE in DONE. The codes are those of R120. -/
def Obligations.RejectionWritesOnlyErr : Prop :=
  (∀ (s : State) (cmd : Word), cmd ∉ [(0x01 : Word), 0x02, 0x12, 0x22, 0x32, 0x42, 0x03, 0x04] →
    exec (.wcmd cmd) s = .next { s with
      ERR := if cmd.toNat % 16 = 2 then .invalidInputType else .illegalCommand, response := .writeDone }) ∧
  (∀ (s : State) (n : Fin 8), n.val ≤ 4 → s.finalized = true →
    exec (.update n) s = .next { s with ERR := .invalidState, response := .writeDone })

/-- R59: a well-formed word written to CMD has the effect of its command, for each of the eight words. -/
def Obligations.CommandWriteRunsTheCommand : Prop :=
  (∀ s : State, ∃ t, exec (.wcmd 0x00000001) s = .next t ∧ exec .init s = .next t) ∧
  (∀ s : State, ∃ t, exec (.wcmd 0x00000003) s = .next t ∧ exec .finalize s = .next t) ∧
  (∀ s : State, ∃ t, exec (.wcmd 0x00000004) s = .next t ∧ exec .clearErr s = .next t) ∧
  (∀ (s : State) (n : Fin 8), n.val ≤ 4 →
    ∃ t, exec (.wcmd (BitVec.ofNat 32 (2 + 16 * n.val))) s = .next t ∧ exec (.update n) s = .next t)

/-- R125: exactly one error is reported. A malformed access is a bus error and leaves ERR alone; else a malformed
command word is reported by its form, in both phases; else a well-formed UPDATE in DONE is INVALID_STATE. -/
def Obligations.ErrorsAreReportedInOrder : Prop :=
  (∀ (s : State) (t : Transaction) (rest : List HostInput) (c : BusErrorCause),
    s.pending = .transaction t :: rest → decode t = .error c →
      ∃ u, step s = .next u ∧ u.response = .busError ∧ u.ERR = s.ERR) ∧
  (∀ (s : State) (cmd : Word) (rest : List HostInput),
    s.pending = .transaction (.write 0x00 4 cmd) :: rest →
    cmd ∉ [(0x01 : Word), 0x02, 0x12, 0x22, 0x32, 0x42, 0x03, 0x04] →
      ∃ u, step s = .next u ∧ u.response = .writeDone ∧
        u.ERR = if cmd.toNat % 16 = 2 then .invalidInputType else .illegalCommand) ∧
  (∀ (s : State) (cmd : Word) (rest : List HostInput),
    s.pending = .transaction (.write 0x00 4 cmd) :: rest → cmd ∈ [(0x02 : Word), 0x12, 0x22, 0x32, 0x42] →
    s.finalized = true → ∃ u, step s = .next u ∧ u.response = .writeDone ∧ u.ERR = .invalidState)

/-- R126: a rejection always writes its own code, whatever ERR holds; reset, INIT and CLEAR_ERR clear ERR; every other
input, an accepted command among them, leaves ERR unchanged. -/
def Obligations.ErrKeepsTheLatestRejection : Prop :=
  ∀ (s t : State) (input : HostInput) (rest : List HostInput), s.pending = input :: rest → step s = .next t →
    (∀ cmd : Word, input = .transaction (.write 0x00 4 cmd) →
      cmd ∉ [(0x01 : Word), 0x02, 0x12, 0x22, 0x32, 0x42, 0x03, 0x04] →
        t.ERR = if cmd.toNat % 16 = 2 then .invalidInputType else .illegalCommand) ∧
    (∀ cmd : Word, input = .transaction (.write 0x00 4 cmd) →
      cmd ∈ [(0x02 : Word), 0x12, 0x22, 0x32, 0x42] → s.finalized = true → t.ERR = .invalidState) ∧
    (clearsError input = true → t.ERR = .none) ∧
    (clearsError input = false →
      (∀ cmd : Word, input = .transaction (.write 0x00 4 cmd) →
        cmd ∈ [(0x01 : Word), 0x02, 0x12, 0x22, 0x32, 0x42, 0x03, 0x04] ∧
          (cmd ∈ [(0x02 : Word), 0x12, 0x22, 0x32, 0x42] → s.finalized = false)) →
      t.ERR = s.ERR)

/-- A host that sees ERR = 0 at the end of a run without bus errors, INIT, CLEAR_ERR or reset knows that no command of
the run was rejected: ERR was 0 after every step of it (70_reset_and_hazards.md R147). -/
def Obligations.SafeRunRejectedNothing : Prop :=
  ∀ (s : State) (k : Nat), safeRun k s = true → k ≤ s.pending.length →
    (∀ input ∈ s.pending.take k, clearsError input = false) →
      ∀ (j : Nat) (t : State), j ≤ k → Host.Core.run Sys2Proof.core j s = .next t → t.ERR = .none

/-! ## Rules over the whole machine -/

/-- R14: H is mutated by the compression step alone, once for each full block, and by the initialisation. INIT and reset
set it to IV; an accepted UPDATE that fills the buffer compresses the block it filled; a FINALIZE or digest read in OPEN
compresses the one final block, or from 56 buffered bytes on the two final blocks (their number is the spec's own
inference, R107); no other step changes H. -/
def Obligations.OnlyCompressionWritesH : Prop :=
  (∀ (s t : State) (input : HostInput) (rest : List HostInput), s.pending = input :: rest → step s = .next t →
    (startsInstance input = true → t.H = #v[0x67452301, 0xefcdab89, 0x98badcfe, 0x10325476]) ∧
    (fillsBuffer s input → t.H = compress s.H (updateBlock s)) ∧
    (finalizes s input → t.H =
      if s.bufLen.val ≤ 55 then compress s.H (onlyFinalBlock s)
      else compress (compress s.H (firstFinalBlock s)) (secondFinalBlock s)) ∧
    (startsInstance input = false → ¬ fillsBuffer s input → ¬ finalizes s input → t.H = s.H)) ∧
  (∀ s t : State, s.pending = [] → step s = .next t → t.H = s.H)

/-- R19: only FINALIZE and the digest reads set `finalized`, and only INIT and reset clear it. -/
def Obligations.OnlyTheseInputsChangeThePhase : Prop :=
  ∀ (s t : State), step s = .next t →
    (s.finalized = false → t.finalized = true →
      ∃ x rest i, s.pending = .transaction x :: rest ∧ decode x = .ok i ∧
        (i = .finalize ∨ (∃ k, i = .rdigest k) ∨ (∃ k, i = .rhex k))) ∧
    (s.finalized = true → t.finalized = false →
      ∃ input rest, s.pending = input :: rest ∧ startsInstance input = true)

/-- R18, R20: the bit length and LEN_OVF change only by INIT and reset, which clear both, and by an accepted UPDATE n,
which adds 8n modulo 2^64 and sets LEN_OVF when the exact sum reaches 2^64. -/
def Obligations.OnlyUpdateAdvancesTheLength : Prop :=
  ∀ (s t : State), step s = .next t →
    (t.bitLen = s.bitLen ∧ t.lenOvf = s.lenOvf) ∨
    ((∃ input rest, s.pending = input :: rest ∧ startsInstance input = true) ∧ t.bitLen = 0 ∧ t.lenOvf = false) ∨
    (s.finalized = false ∧ ∃ (n : Fin 8) (rest : List HostInput),
      s.pending = .transaction (encode (.update n)) :: rest ∧ n.val ≤ 4 ∧
      t.bitLen.toNat = (s.bitLen.toNat + 8 * n.val) % 2 ^ 64 ∧
      t.lenOvf = (s.lenOvf || decide (2 ^ 64 ≤ s.bitLen.toNat + 8 * n.val)))

/-- R22: no command changes DATA; only a write to offset 0x04 and reset write it. -/
def Obligations.OnlyHostWritesChangeData : Prop :=
  ∀ (s t : State), step s = .next t →
    t.DATA = s.DATA ∨
    (∃ v rest, s.pending = .transaction (.write 0x04 4 v) :: rest ∧ t.DATA = v) ∨
    (t.DATA = 0 ∧ ∃ rest, s.pending = .reset :: rest ∨ ∃ x, s.pending = .resetDuring x :: rest)

/-- R109, the spec's own inference: in DONE no input but INIT and reset changes H, Buf, bufLen, bitLen, lenOvf or the
phase. -/
def Obligations.DoneInstanceIsFrozen : Prop :=
  ∀ (s t : State), s.finalized = true →
    (∀ input rest, s.pending = input :: rest → startsInstance input = false) → step s = .next t →
      t.H = s.H ∧ t.Buf = s.Buf ∧ t.bufLen = s.bufLen ∧ t.bitLen = s.bitLen ∧ t.lenOvf = s.lenOvf ∧
      t.finalized = true

/-- R116, the spec's own inference: once DONE, every DIGEST and HEX read returns the same value, after any number of
inputs without INIT or reset. -/
def Obligations.DigestReadsRepeat : Prop :=
  ∀ (n : Nat) (s t : State), s.finalized = true →
    (∀ input ∈ s.pending.take n, startsInstance input = false) →
    Host.Core.run Sys2Proof.core n s = .next t →
      (∀ k : Fin 4, ∃ u v, exec (.rdigest k) s = .next u ∧ exec (.rdigest k) t = .next v ∧
        u.response = v.response) ∧
      (∀ k : Fin 8, ∃ u v, exec (.rhex k) s = .next u ∧ exec (.rhex k) t = .next v ∧ u.response = v.response)

/-! ## Invariants and the message -/

/-- Every step keeps: in DONE the buffer is empty, as STATUS shows it (40_control.md R69, 43_finalize.md R106). -/
def Obligations.DoneHasAnEmptyBuffer : Prop :=
  (State.reset.finalized = true → State.reset.bufLen = 0) ∧
  ∀ (s t : State), (s.finalized = true → s.bufLen = 0) → step s = .next t → t.finalized = true → t.bufLen = 0

/-- Right after reset the machine holds the empty message (R33, R35). -/
def Obligations.ResetHoldsTheEmptyMessage : Prop := Represents State.reset []

/-- The invariant of R33 and R34 (the spec's own inference) in one: a state that holds the message `m` is taken by
every step to a state that holds the message after it, which INIT and reset empty, an accepted UPDATE extends by its
bytes, and nothing else changes. -/
def Obligations.EveryStepKeepsTheMessage : Prop :=
  ∀ (s t : State) (m : List Byte), Represents s m → step s = .next t → Represents t (messageAfter s m)

/-- The digest is a function of the message alone: in a state that holds `m`, in either phase, RDIGEST k and RHEX k
return words of the digest of `m`, which is the padded message compressed from IV (R108, R117, R118). -/
def Obligations.DigestReadsGiveTheDigestOfTheMessage : Prop :=
  ∀ (s : State) (m : List Byte), Represents s m →
    (∀ k : Fin 4, ∃ t, exec (.rdigest k) s = .next t ∧ t.response = .readData (digestWords m)[k] ∧
      Represents t m) ∧
    (∀ k : Fin 8, ∃ t, exec (.rhex k) s = .next t ∧ t.response = .readData (hexWord (digestWords m) k) ∧
      Represents t m)

/-- R77, the spec's own inference: feeding any chunks of 0 to 4 bytes through UPDATEs, in order, leaves the state of
their concatenation, however the message was split. -/
def Obligations.ChunksFeedTheirConcatenation : Prop :=
  ∀ (s : State) (m : List Byte) (chunks : List (List Byte)) (rest : List HostInput),
    Represents s m → s.finalized = false → (∀ c ∈ chunks, c.length ≤ 4) →
    s.pending = inputsOf (chunks.flatMap putChunk) ++ rest →
      ∃ t : State, Host.Core.run Sys2Proof.core (2 * chunks.length) s = .next t ∧
        Represents t (m ++ chunks.flatten) ∧ t.finalized = false ∧ t.ERR = s.ERR ∧ t.pending = rest

/-- R63: HASHBYTES m feeds exactly the bytes of `m`: one WDATA and one UPDATE for each group of four bytes and for the
rest. -/
def Obligations.HashBytesFeedsTheBytes : Prop :=
  ∀ (s : State) (m₀ m : List Byte) (rest : List HostInput),
    Represents s m₀ → s.finalized = false → s.pending = inputsOf (hashBytes m) ++ rest →
      (hashBytes m).length = 2 * ((m.length + 3) / 4) ∧
      ∃ t : State, Host.Core.run Sys2Proof.core (hashBytes m).length s = .next t ∧ Represents t (m₀ ++ m) ∧
        t.finalized = false ∧ t.ERR = s.ERR ∧ t.pending = rest

/-- What the core is for: in any state, `SEED m` (INIT, then HASHBYTES m; R63) ends in a state from which RDIGEST k
and RHEX k return the words of the digest of `m`, with ERR = 0 (R65, R77, R111, R114). -/
def Obligations.SeedThenReadGivesTheDigest : Prop :=
  ∀ (s : State) (m : List Byte) (rest : List HostInput), s.pending = inputsOf (seed m) ++ rest →
    ∃ t : State, Host.Core.run Sys2Proof.core (seed m).length s = .next t ∧ t.ERR = .none ∧ t.pending = rest ∧
      (∀ k : Fin 4, ∃ u, exec (.rdigest k) t = .next u ∧ u.response = .readData (digestWords m)[k]) ∧
      (∀ k : Fin 8, ∃ u, exec (.rhex k) t = .next u ∧ u.response = .readData (hexWord (digestWords m) k))

/-- R16, the spec's own inference: no observation depends on the bytes of Buf beyond bufLen. Two states that differ in
those alone, and in which free values they draw next, step to two such states with the same response; the response of a
transaction that reset interrupts is not defined and is left out. -/
def Obligations.UnspecifiedBytesAreNeverObserved : Prop :=
  ∀ (s t s' t' : State), Indistinguishable s t → step s = .next s' → step t = .next t' →
    ((∀ x rest, s.pending ≠ .resetDuring x :: rest) → Indistinguishable s' t') ∧
    Indistinguishable { s' with response := .noneYet } { t' with response := .noneYet }

/-! ## The platform -/

/-- R46 for each core: CORE_BASE is a multiple of 256, and the bus addresses of the core's window are its CORE_BASE plus
the offset, and no others. -/
def Obligations.WindowIsAtCoreBase : Prop :=
  ∀ core : Nat, Config.coreBase core % 256 = 0 ∧
    (∀ off : BitVec 8, offsetOfAddress core (Config.coreBase core + off.toNat) = some off) ∧
    (∀ (address : Nat) (off : BitVec 8), offsetOfAddress core address = some off →
      address = Config.coreBase core + off.toNat)

/-- R135: instances share no state. A step of one core is the step of that core alone and leaves every other core as it
was. That a platform has at least one core is the table of parameters in 92_eei_decisions.md (N_INSTANCES at least 1) and
not R135 (log entry 8). -/
def Obligations.CoresShareNoState : Prop :=
  1 ≤ Platform.reset.cores.length ∧
  ∀ (p : Platform) (k : Nat) (s : State), p.cores[k]? = some s → ∃ q s', p.stepCore k = .next q ∧ step s = .next s' ∧
    q.cores[k]? = some s' ∧ ∀ j, j ≠ k → q.cores[j]? = p.cores[j]?

/-- R135: each core is at its own CORE_BASE. An access on the bus at an offset of core k's window is one more input of
core k, at that offset, and of no other core; an access in no core's window reaches none. That no two windows share an
address is DEDUCED from "each at its own CORE_BASE" (log entry 8). -/
def Obligations.AccessReachesItsOwnCore : Prop :=
  (∀ j k : Nat, j ≠ k → Config.coreBase j ≠ Config.coreBase k) ∧
  (∀ (j k address : Nat) (o o' : BitVec 8),
    offsetOfAddress j address = some o → offsetOfAddress k address = some o' → j = k) ∧
  (∀ (p : Platform) (a : BusAccess) (k : Nat) (s : State) (off : BitVec 8),
    p.cores[k]? = some s → a.address = Config.coreBase k + off.toNat →
      (p.access a).cores[k]? = some { s with pending := s.pending ++ [.transaction (a.atOffset off)] } ∧
      ∀ j, j ≠ k → (p.access a).cores[j]? = p.cores[j]?) ∧
  (∀ (p : Platform) (a : BusAccess),
    (∀ k, k < p.cores.length → offsetOfAddress k a.address = none) → p.access a = p)
end

