-- ==== Sys2Proof/Laws/State.lean ====
section
/-! SUPPORT. One lemma per field of `State` for each shared update of Machine/Ops.lean, so that no proof unfolds a
record update. -/

namespace Sys2Proof.Machine

/-! ## respond -/

@[simp] theorem State.respond_H (s : State) (r : Response) : (s.respond r).H = s.H := rfl
@[simp] theorem State.respond_Buf (s : State) (r : Response) : (s.respond r).Buf = s.Buf := rfl
@[simp] theorem State.respond_bufLen (s : State) (r : Response) : (s.respond r).bufLen = s.bufLen := rfl
@[simp] theorem State.respond_bitLen (s : State) (r : Response) : (s.respond r).bitLen = s.bitLen := rfl
@[simp] theorem State.respond_finalized (s : State) (r : Response) : (s.respond r).finalized = s.finalized := rfl
@[simp] theorem State.respond_lenOvf (s : State) (r : Response) : (s.respond r).lenOvf = s.lenOvf := rfl
@[simp] theorem State.respond_ERR (s : State) (r : Response) : (s.respond r).ERR = s.ERR := rfl
@[simp] theorem State.respond_DATA (s : State) (r : Response) : (s.respond r).DATA = s.DATA := rfl
@[simp] theorem State.respond_pending (s : State) (r : Response) : (s.respond r).pending = s.pending := rfl
@[simp] theorem State.respond_response (s : State) (r : Response) : (s.respond r).response = r := rfl
@[simp] theorem State.respond_freeDraws (s : State) (r : Response) : (s.respond r).freeDraws = s.freeDraws := rfl
@[simp] theorem State.respond_freeStream (s : State) (r : Response) : (s.respond r).freeStream = s.freeStream := rfl

/-! ## reject -/

@[simp] theorem State.reject_H (s : State) (code : ErrCode) : (s.reject code).H = s.H := rfl
@[simp] theorem State.reject_Buf (s : State) (code : ErrCode) : (s.reject code).Buf = s.Buf := rfl
@[simp] theorem State.reject_bufLen (s : State) (code : ErrCode) : (s.reject code).bufLen = s.bufLen := rfl
@[simp] theorem State.reject_bitLen (s : State) (code : ErrCode) : (s.reject code).bitLen = s.bitLen := rfl
@[simp] theorem State.reject_finalized (s : State) (code : ErrCode) : (s.reject code).finalized = s.finalized := rfl
@[simp] theorem State.reject_lenOvf (s : State) (code : ErrCode) : (s.reject code).lenOvf = s.lenOvf := rfl
@[simp] theorem State.reject_ERR (s : State) (code : ErrCode) : (s.reject code).ERR = code := rfl
@[simp] theorem State.reject_DATA (s : State) (code : ErrCode) : (s.reject code).DATA = s.DATA := rfl
@[simp] theorem State.reject_pending (s : State) (code : ErrCode) : (s.reject code).pending = s.pending := rfl
@[simp] theorem State.reject_response (s : State) (code : ErrCode) : (s.reject code).response = .writeDone := rfl
@[simp] theorem State.reject_freeDraws (s : State) (code : ErrCode) : (s.reject code).freeDraws = s.freeDraws := rfl
@[simp] theorem State.reject_freeStream (s : State) (code : ErrCode) : (s.reject code).freeStream = s.freeStream := rfl

/-! ## clearError -/

@[simp] theorem State.clearError_H (s : State) : (s.clearError).H = s.H := rfl
@[simp] theorem State.clearError_Buf (s : State) : (s.clearError).Buf = s.Buf := rfl
@[simp] theorem State.clearError_bufLen (s : State) : (s.clearError).bufLen = s.bufLen := rfl
@[simp] theorem State.clearError_bitLen (s : State) : (s.clearError).bitLen = s.bitLen := rfl
@[simp] theorem State.clearError_finalized (s : State) : (s.clearError).finalized = s.finalized := rfl
@[simp] theorem State.clearError_lenOvf (s : State) : (s.clearError).lenOvf = s.lenOvf := rfl
@[simp] theorem State.clearError_ERR (s : State) : (s.clearError).ERR = .none := rfl
@[simp] theorem State.clearError_DATA (s : State) : (s.clearError).DATA = s.DATA := rfl
@[simp] theorem State.clearError_pending (s : State) : (s.clearError).pending = s.pending := rfl
@[simp] theorem State.clearError_response (s : State) : (s.clearError).response = s.response := rfl
@[simp] theorem State.clearError_freeDraws (s : State) : (s.clearError).freeDraws = s.freeDraws := rfl
@[simp] theorem State.clearError_freeStream (s : State) : (s.clearError).freeStream = s.freeStream := rfl

/-! ## busError -/

@[simp] theorem State.busError_H (s : State) : (s.busError).H = s.H := rfl
@[simp] theorem State.busError_Buf (s : State) : (s.busError).Buf = s.Buf := rfl
@[simp] theorem State.busError_bufLen (s : State) : (s.busError).bufLen = s.bufLen := rfl
@[simp] theorem State.busError_bitLen (s : State) : (s.busError).bitLen = s.bitLen := rfl
@[simp] theorem State.busError_finalized (s : State) : (s.busError).finalized = s.finalized := rfl
@[simp] theorem State.busError_lenOvf (s : State) : (s.busError).lenOvf = s.lenOvf := rfl
@[simp] theorem State.busError_ERR (s : State) : (s.busError).ERR = s.ERR := rfl
@[simp] theorem State.busError_DATA (s : State) : (s.busError).DATA = s.DATA := rfl
@[simp] theorem State.busError_pending (s : State) : (s.busError).pending = s.pending := rfl
@[simp] theorem State.busError_response (s : State) : (s.busError).response = .busError := rfl
@[simp] theorem State.busError_freeDraws (s : State) : (s.busError).freeDraws = s.freeDraws := rfl
@[simp] theorem State.busError_freeStream (s : State) : (s.busError).freeStream = s.freeStream := rfl

/-! ## newEngine -/

@[simp] theorem State.newEngine_H (s : State) : (s.newEngine).H = iv := rfl
@[simp] theorem State.newEngine_Buf (s : State) : (s.newEngine).Buf = Config.freeBlock s.freeStream s.freeDraws := rfl
@[simp] theorem State.newEngine_bufLen (s : State) : (s.newEngine).bufLen = 0 := rfl
@[simp] theorem State.newEngine_bitLen (s : State) : (s.newEngine).bitLen = 0 := rfl
@[simp] theorem State.newEngine_finalized (s : State) : (s.newEngine).finalized = false := rfl
@[simp] theorem State.newEngine_lenOvf (s : State) : (s.newEngine).lenOvf = false := rfl
@[simp] theorem State.newEngine_ERR (s : State) : (s.newEngine).ERR = .none := rfl
@[simp] theorem State.newEngine_DATA (s : State) : (s.newEngine).DATA = s.DATA := rfl
@[simp] theorem State.newEngine_pending (s : State) : (s.newEngine).pending = s.pending := rfl
@[simp] theorem State.newEngine_response (s : State) : (s.newEngine).response = s.response := rfl
@[simp] theorem State.newEngine_freeDraws (s : State) : (s.newEngine).freeDraws = s.freeDraws + 1 := rfl
@[simp] theorem State.newEngine_freeStream (s : State) : (s.newEngine).freeStream = s.freeStream := rfl

/-! ## advanceLength -/

@[simp] theorem State.advanceLength_H (s : State) (n : Nat) : (s.advanceLength n).H = s.H := rfl
@[simp] theorem State.advanceLength_Buf (s : State) (n : Nat) : (s.advanceLength n).Buf = s.Buf := rfl
@[simp] theorem State.advanceLength_bufLen (s : State) (n : Nat) : (s.advanceLength n).bufLen = s.bufLen := rfl
@[simp] theorem State.advanceLength_bitLen (s : State) (n : Nat) : (s.advanceLength n).bitLen = lengthAfter s.bitLen n := rfl
@[simp] theorem State.advanceLength_finalized (s : State) (n : Nat) : (s.advanceLength n).finalized = s.finalized := rfl
@[simp] theorem State.advanceLength_lenOvf (s : State) (n : Nat) : (s.advanceLength n).lenOvf = lenOvfAfter s.lenOvf s.bitLen n := rfl
@[simp] theorem State.advanceLength_ERR (s : State) (n : Nat) : (s.advanceLength n).ERR = s.ERR := rfl
@[simp] theorem State.advanceLength_DATA (s : State) (n : Nat) : (s.advanceLength n).DATA = s.DATA := rfl
@[simp] theorem State.advanceLength_pending (s : State) (n : Nat) : (s.advanceLength n).pending = s.pending := rfl
@[simp] theorem State.advanceLength_response (s : State) (n : Nat) : (s.advanceLength n).response = s.response := rfl
@[simp] theorem State.advanceLength_freeDraws (s : State) (n : Nat) : (s.advanceLength n).freeDraws = s.freeDraws := rfl
@[simp] theorem State.advanceLength_freeStream (s : State) (n : Nat) : (s.advanceLength n).freeStream = s.freeStream := rfl

/-! ## lastBlock -/

@[simp] theorem State.lastBlock_H (s : State) : (s.lastBlock).H = compress s.H s.Buf := rfl
@[simp] theorem State.lastBlock_Buf (s : State) : (s.lastBlock).Buf = s.Buf := rfl
@[simp] theorem State.lastBlock_bufLen (s : State) : (s.lastBlock).bufLen = 0 := rfl
@[simp] theorem State.lastBlock_bitLen (s : State) : (s.lastBlock).bitLen = s.bitLen := rfl
@[simp] theorem State.lastBlock_finalized (s : State) : (s.lastBlock).finalized = true := rfl
@[simp] theorem State.lastBlock_lenOvf (s : State) : (s.lastBlock).lenOvf = s.lenOvf := rfl
@[simp] theorem State.lastBlock_ERR (s : State) : (s.lastBlock).ERR = s.ERR := rfl
@[simp] theorem State.lastBlock_DATA (s : State) : (s.lastBlock).DATA = s.DATA := rfl
@[simp] theorem State.lastBlock_pending (s : State) : (s.lastBlock).pending = s.pending := rfl
@[simp] theorem State.lastBlock_response (s : State) : (s.lastBlock).response = s.response := rfl
@[simp] theorem State.lastBlock_freeDraws (s : State) : (s.lastBlock).freeDraws = s.freeDraws := rfl
@[simp] theorem State.lastBlock_freeStream (s : State) : (s.lastBlock).freeStream = s.freeStream := rfl

/-! ## applyReset -/

@[simp] theorem State.applyReset_H (s : State) : (s.applyReset).H = iv := rfl
@[simp] theorem State.applyReset_Buf (s : State) : (s.applyReset).Buf = Config.freeBlock s.freeStream s.freeDraws := rfl
@[simp] theorem State.applyReset_bufLen (s : State) : (s.applyReset).bufLen = 0 := rfl
@[simp] theorem State.applyReset_bitLen (s : State) : (s.applyReset).bitLen = 0 := rfl
@[simp] theorem State.applyReset_finalized (s : State) : (s.applyReset).finalized = false := rfl
@[simp] theorem State.applyReset_lenOvf (s : State) : (s.applyReset).lenOvf = false := rfl
@[simp] theorem State.applyReset_ERR (s : State) : (s.applyReset).ERR = .none := rfl
@[simp] theorem State.applyReset_DATA (s : State) : (s.applyReset).DATA = 0 := rfl
@[simp] theorem State.applyReset_pending (s : State) : (s.applyReset).pending = s.pending := rfl
@[simp] theorem State.applyReset_response (s : State) : (s.applyReset).response = .noneYet := rfl
@[simp] theorem State.applyReset_freeDraws (s : State) : (s.applyReset).freeDraws = s.freeDraws + 1 := rfl
@[simp] theorem State.applyReset_freeStream (s : State) : (s.applyReset).freeStream = s.freeStream := rfl

/-! ## interruptByReset -/

@[simp] theorem State.interruptByReset_H (s : State) (t : Transaction) : (s.interruptByReset t).H = iv := rfl
@[simp] theorem State.interruptByReset_Buf (s : State) (t : Transaction) : (s.interruptByReset t).Buf = Config.freeBlock s.freeStream s.freeDraws := rfl
@[simp] theorem State.interruptByReset_bufLen (s : State) (t : Transaction) : (s.interruptByReset t).bufLen = 0 := rfl
@[simp] theorem State.interruptByReset_bitLen (s : State) (t : Transaction) : (s.interruptByReset t).bitLen = 0 := rfl
@[simp] theorem State.interruptByReset_finalized (s : State) (t : Transaction) : (s.interruptByReset t).finalized = false := rfl
@[simp] theorem State.interruptByReset_lenOvf (s : State) (t : Transaction) : (s.interruptByReset t).lenOvf = false := rfl
@[simp] theorem State.interruptByReset_ERR (s : State) (t : Transaction) : (s.interruptByReset t).ERR = .none := rfl
@[simp] theorem State.interruptByReset_DATA (s : State) (t : Transaction) : (s.interruptByReset t).DATA = 0 := rfl
@[simp] theorem State.interruptByReset_pending (s : State) (t : Transaction) : (s.interruptByReset t).pending = s.pending := rfl
@[simp] theorem State.interruptByReset_response (s : State) (t : Transaction) : (s.interruptByReset t).response = Config.interruptedResponse s.freeStream s.freeDraws t := rfl
@[simp] theorem State.interruptByReset_freeDraws (s : State) (t : Transaction) : (s.interruptByReset t).freeDraws = s.freeDraws + 1 := rfl
@[simp] theorem State.interruptByReset_freeStream (s : State) (t : Transaction) : (s.interruptByReset t).freeStream = s.freeStream := rfl

/-! ## submit -/

@[simp] theorem State.submit_H (s : State) (inputs : List HostInput) : (s.submit inputs).H = s.H := rfl
@[simp] theorem State.submit_Buf (s : State) (inputs : List HostInput) : (s.submit inputs).Buf = s.Buf := rfl
@[simp] theorem State.submit_bufLen (s : State) (inputs : List HostInput) : (s.submit inputs).bufLen = s.bufLen := rfl
@[simp] theorem State.submit_bitLen (s : State) (inputs : List HostInput) : (s.submit inputs).bitLen = s.bitLen := rfl
@[simp] theorem State.submit_finalized (s : State) (inputs : List HostInput) : (s.submit inputs).finalized = s.finalized := rfl
@[simp] theorem State.submit_lenOvf (s : State) (inputs : List HostInput) : (s.submit inputs).lenOvf = s.lenOvf := rfl
@[simp] theorem State.submit_ERR (s : State) (inputs : List HostInput) : (s.submit inputs).ERR = s.ERR := rfl
@[simp] theorem State.submit_DATA (s : State) (inputs : List HostInput) : (s.submit inputs).DATA = s.DATA := rfl
@[simp] theorem State.submit_pending (s : State) (inputs : List HostInput) : (s.submit inputs).pending = s.pending ++ inputs := rfl
@[simp] theorem State.submit_response (s : State) (inputs : List HostInput) : (s.submit inputs).response = s.response := rfl
@[simp] theorem State.submit_freeDraws (s : State) (inputs : List HostInput) : (s.submit inputs).freeDraws = s.freeDraws := rfl
@[simp] theorem State.submit_freeStream (s : State) (inputs : List HostInput) : (s.submit inputs).freeStream = s.freeStream := rfl

/-! ## submitFirst -/

@[simp] theorem State.submitFirst_H (s : State) (t : Transaction) : (s.submitFirst t).H = s.H := rfl
@[simp] theorem State.submitFirst_Buf (s : State) (t : Transaction) : (s.submitFirst t).Buf = s.Buf := rfl
@[simp] theorem State.submitFirst_bufLen (s : State) (t : Transaction) : (s.submitFirst t).bufLen = s.bufLen := rfl
@[simp] theorem State.submitFirst_bitLen (s : State) (t : Transaction) : (s.submitFirst t).bitLen = s.bitLen := rfl
@[simp] theorem State.submitFirst_finalized (s : State) (t : Transaction) : (s.submitFirst t).finalized = s.finalized := rfl
@[simp] theorem State.submitFirst_lenOvf (s : State) (t : Transaction) : (s.submitFirst t).lenOvf = s.lenOvf := rfl
@[simp] theorem State.submitFirst_ERR (s : State) (t : Transaction) : (s.submitFirst t).ERR = s.ERR := rfl
@[simp] theorem State.submitFirst_DATA (s : State) (t : Transaction) : (s.submitFirst t).DATA = s.DATA := rfl
@[simp] theorem State.submitFirst_pending (s : State) (t : Transaction) : (s.submitFirst t).pending = .transaction t :: s.pending := rfl
@[simp] theorem State.submitFirst_response (s : State) (t : Transaction) : (s.submitFirst t).response = s.response := rfl
@[simp] theorem State.submitFirst_freeDraws (s : State) (t : Transaction) : (s.submitFirst t).freeDraws = s.freeDraws := rfl
@[simp] theorem State.submitFirst_freeStream (s : State) (t : Transaction) : (s.submitFirst t).freeStream = s.freeStream := rfl

/-! ## The reset state (R138) -/

@[simp] theorem State.reset_H : State.reset.H = iv := rfl
@[simp] theorem State.reset_Buf : State.reset.Buf = Config.freeBlock 0 0 := rfl
@[simp] theorem State.reset_bufLen : State.reset.bufLen = 0 := rfl
@[simp] theorem State.reset_bitLen : State.reset.bitLen = 0 := rfl
@[simp] theorem State.reset_finalized : State.reset.finalized = false := rfl
@[simp] theorem State.reset_lenOvf : State.reset.lenOvf = false := rfl
@[simp] theorem State.reset_ERR : State.reset.ERR = .none := rfl
@[simp] theorem State.reset_DATA : State.reset.DATA = 0 := rfl
@[simp] theorem State.reset_pending : State.reset.pending = [] := rfl
@[simp] theorem State.reset_response : State.reset.response = .noneYet := rfl

end Sys2Proof.Machine
end

