-- ==== Sys2Proof/Laws/Buffer.lean ====
section
/-! SUPPORT. What AppendByte, the padding loop and the length field do (spec/41_update.md R75, spec/43_finalize.md
R100, R104): their frames, `bufLen` after them, and the bytes they leave in `Buf`. -/

namespace Sys2Proof.Machine

/-! ## AppendByte -/

/-- AppendByte below the last byte of the buffer: one byte written, nothing compressed. -/
theorem State.appendByte_of_lt (s : State) (x : Byte) (h : s.bufLen.val + 1 < 64) :
    s.appendByte x =
      { s with Buf := s.Buf.set s.bufLen.val x s.bufLen.isLt, bufLen := ⟨s.bufLen.val + 1, h⟩ } := by
  simp [State.appendByte, h]

/-- AppendByte at the last byte of the buffer: the full buffer is compressed and the count starts again. -/
theorem State.appendByte_of_full (s : State) (x : Byte) (h : s.bufLen.val = 63) :
    s.appendByte x =
      { s with
        H := compress s.H (s.Buf.set s.bufLen.val x s.bufLen.isLt)
        Buf := s.Buf.set s.bufLen.val x s.bufLen.isLt
        bufLen := 0 } := by
  have : ¬ s.bufLen.val + 1 < 64 := by omega
  simp [State.appendByte, this]

/-- `Buf` after AppendByte, in both cases. -/
@[simp] theorem State.appendByte_Buf (s : State) (x : Byte) :
    (s.appendByte x).Buf = s.Buf.set s.bufLen.val x s.bufLen.isLt := by
  unfold State.appendByte; split <;> rfl

/-- `bufLen` after AppendByte, in both cases. -/
@[simp] theorem State.appendByte_bufLen (s : State) (x : Byte) :
    (s.appendByte x).bufLen.val = (s.bufLen.val + 1) % 64 := by
  have := s.bufLen.isLt
  unfold State.appendByte
  split
  · simp only; omega
  · simp only; show 0 = _; omega

/-- `H` after AppendByte: changed only by the compression that a full buffer starts. -/
theorem State.appendByte_H (s : State) (x : Byte) :
    (s.appendByte x).H =
      if s.bufLen.val = 63 then compress s.H (s.Buf.set s.bufLen.val x s.bufLen.isLt) else s.H := by
  have := s.bufLen.isLt
  unfold State.appendByte
  split
  · rw [if_neg (by omega)]
  · rw [if_pos (by omega)]

@[simp] theorem State.appendByte_bitLen (s : State) (x : Byte) : (s.appendByte x).bitLen = s.bitLen := by
  unfold State.appendByte; split <;> rfl
@[simp] theorem State.appendByte_finalized (s : State) (x : Byte) : (s.appendByte x).finalized = s.finalized := by
  unfold State.appendByte; split <;> rfl
@[simp] theorem State.appendByte_lenOvf (s : State) (x : Byte) : (s.appendByte x).lenOvf = s.lenOvf := by
  unfold State.appendByte; split <;> rfl
@[simp] theorem State.appendByte_ERR (s : State) (x : Byte) : (s.appendByte x).ERR = s.ERR := by
  unfold State.appendByte; split <;> rfl
@[simp] theorem State.appendByte_DATA (s : State) (x : Byte) : (s.appendByte x).DATA = s.DATA := by
  unfold State.appendByte; split <;> rfl
@[simp] theorem State.appendByte_pending (s : State) (x : Byte) : (s.appendByte x).pending = s.pending := by
  unfold State.appendByte; split <;> rfl
@[simp] theorem State.appendByte_response (s : State) (x : Byte) : (s.appendByte x).response = s.response := by
  unfold State.appendByte; split <;> rfl
@[simp] theorem State.appendByte_freeDraws (s : State) (x : Byte) : (s.appendByte x).freeDraws = s.freeDraws := by
  unfold State.appendByte; split <;> rfl
@[simp] theorem State.appendByte_freeStream (s : State) (x : Byte) : (s.appendByte x).freeStream = s.freeStream := by
  unfold State.appendByte; split <;> rfl

/-! ## Appending several bytes -/

@[simp] theorem State.appendBytes_nil (s : State) : s.appendBytes [] = s := rfl
@[simp] theorem State.appendBytes_cons (s : State) (x : Byte) (xs : List Byte) :
    s.appendBytes (x :: xs) = (s.appendByte x).appendBytes xs := rfl

/-- A field that AppendByte keeps is kept by any number of appends. -/
theorem State.appendBytes_keeps {α : Type} (f : State → α) (hf : ∀ s x, f (s.appendByte x) = f s) (xs : List Byte) :
    ∀ s : State, f (s.appendBytes xs) = f s := by
  induction xs with
  | nil => intro s; rfl
  | cons x xs ih => intro s; rw [State.appendBytes_cons, ih, hf]

@[simp] theorem State.appendBytes_bitLen (s : State) (xs : List Byte) : (s.appendBytes xs).bitLen = s.bitLen :=
  State.appendBytes_keeps State.bitLen State.appendByte_bitLen xs s
@[simp] theorem State.appendBytes_finalized (s : State) (xs : List Byte) :
    (s.appendBytes xs).finalized = s.finalized :=
  State.appendBytes_keeps State.finalized State.appendByte_finalized xs s
@[simp] theorem State.appendBytes_lenOvf (s : State) (xs : List Byte) : (s.appendBytes xs).lenOvf = s.lenOvf :=
  State.appendBytes_keeps State.lenOvf State.appendByte_lenOvf xs s
@[simp] theorem State.appendBytes_ERR (s : State) (xs : List Byte) : (s.appendBytes xs).ERR = s.ERR :=
  State.appendBytes_keeps State.ERR State.appendByte_ERR xs s
@[simp] theorem State.appendBytes_DATA (s : State) (xs : List Byte) : (s.appendBytes xs).DATA = s.DATA :=
  State.appendBytes_keeps State.DATA State.appendByte_DATA xs s
@[simp] theorem State.appendBytes_pending (s : State) (xs : List Byte) : (s.appendBytes xs).pending = s.pending :=
  State.appendBytes_keeps State.pending State.appendByte_pending xs s
@[simp] theorem State.appendBytes_response (s : State) (xs : List Byte) : (s.appendBytes xs).response = s.response :=
  State.appendBytes_keeps State.response State.appendByte_response xs s
@[simp] theorem State.appendBytes_freeDraws (s : State) (xs : List Byte) :
    (s.appendBytes xs).freeDraws = s.freeDraws :=
  State.appendBytes_keeps State.freeDraws State.appendByte_freeDraws xs s
@[simp] theorem State.appendBytes_freeStream (s : State) (xs : List Byte) :
    (s.appendBytes xs).freeStream = s.freeStream :=
  State.appendBytes_keeps State.freeStream State.appendByte_freeStream xs s

/-- `bufLen` after any number of appends. -/
@[simp] theorem State.appendBytes_bufLen (xs : List Byte) :
    ∀ s : State, (s.appendBytes xs).bufLen.val = (s.bufLen.val + xs.length) % 64 := by
  induction xs with
  | nil => intro s; have := s.bufLen.isLt; simp only [State.appendBytes_nil, List.length_nil]; omega
  | cons x xs ih =>
    intro s
    rw [State.appendBytes_cons, ih, State.appendByte_bufLen, List.length_cons]
    omega

/-- `Buf` after at most 64 appends: the bytes at the next places, going on at place 0 after place 63. -/
theorem State.appendBytes_Buf (xs : List Byte) :
    ∀ s : State, xs.length ≤ 64 → ∀ (j : Nat) (hj : j < 64),
      (s.appendBytes xs).Buf[j] =
        if (j + 64 - s.bufLen.val) % 64 < xs.length then xs.getD ((j + 64 - s.bufLen.val) % 64) 0 else s.Buf[j] := by
  induction xs with
  | nil => intro s _ j hj; simp
  | cons x xs ih =>
    intro s hl j hj
    have hb := s.bufLen.isLt
    simp only [List.length_cons] at hl
    rw [State.appendBytes_cons, ih _ (by omega) j hj]
    simp only [State.appendByte_bufLen, State.appendByte_Buf, Vector.getElem_set, List.length_cons]
    by_cases hjb : s.bufLen.val = j
    · have h0 : (j + 64 - s.bufLen.val) % 64 = 0 := by omega
      have h1 : (j + 64 - (s.bufLen.val + 1) % 64) % 64 = 63 := by omega
      rw [h0, h1, if_neg (by omega), if_pos hjb, if_pos (by omega)]; rfl
    · have h1 : (j + 64 - s.bufLen.val) % 64 = (j + 64 - (s.bufLen.val + 1) % 64) % 64 + 1 := by omega
      rw [h1, if_neg hjb]
      simp only [List.getD_cons_succ]
      split
      · rw [if_pos (by omega)]
      · rw [if_neg (by omega)]

/-- Appends that do not fill the buffer compress nothing. -/
theorem State.appendBytes_H_of_lt (xs : List Byte) :
    ∀ s : State, s.bufLen.val + xs.length < 64 → (s.appendBytes xs).H = s.H := by
  induction xs with
  | nil => intro s _; rfl
  | cons x xs ih =>
    intro s h
    simp only [List.length_cons] at h
    rw [State.appendBytes_cons, ih _ (by rw [State.appendByte_bufLen]; omega), State.appendByte_H, if_neg (by omega)]

/-- Appends that fill the buffer once compress the full block: the bytes that were there, then the first new ones. -/
theorem State.appendBytes_H_of_ge (xs : List Byte) :
    ∀ s : State, 64 ≤ s.bufLen.val + xs.length → s.bufLen.val + xs.length < 128 →
      (s.appendBytes xs).H = compress s.H (Vector.ofFn fun j =>
        if j.val < s.bufLen.val then s.Buf[j] else xs.getD (j.val - s.bufLen.val) 0) := by
  induction xs with
  | nil => intro s h; have := s.bufLen.isLt; simp at h; omega
  | cons x xs ih =>
    intro s h h2
    have hb := s.bufLen.isLt
    simp only [List.length_cons] at h h2
    rw [State.appendBytes_cons]
    by_cases hf : s.bufLen.val = 63
    · rw [State.appendBytes_H_of_lt _ _ (by rw [State.appendByte_bufLen]; omega), State.appendByte_H, if_pos hf]
      refine congrArg _ (Vector.ext ?_)
      intro j hj
      rw [Vector.getElem_set, Vector.getElem_ofFn]
      simp only
      by_cases h3 : s.bufLen.val = j
      · rw [if_pos h3, if_neg (by omega), show j - s.bufLen.val = 0 by omega]; rfl
      · rw [if_neg h3, if_pos (by omega)]; rfl
    · rw [ih _ (by rw [State.appendByte_bufLen]; omega) (by rw [State.appendByte_bufLen]; omega),
        State.appendByte_H, if_neg hf]
      refine congrArg _ (Vector.ext ?_)
      intro j hj
      rw [Vector.getElem_ofFn, Vector.getElem_ofFn]
      simp only [State.appendByte_bufLen, State.appendByte_Buf, Fin.getElem_fin, Vector.getElem_set]
      by_cases h3 : j < s.bufLen.val
      · rw [if_pos (by omega), if_pos h3, if_neg (by omega)]
      · by_cases h4 : j = s.bufLen.val
        · rw [if_pos (by omega), if_pos h4.symm, if_neg h3, show j - s.bufLen.val = 0 by omega]; rfl
        · rw [if_neg (by omega), if_neg (by omega),
            show j - s.bufLen.val = (j - (s.bufLen.val + 1) % 64) + 1 by omega, List.getD_cons_succ]

/-! ## The operand bytes of UPDATE -/

theorem updateBytes_length (data : Word) (n : Nat) : (updateBytes data n).length = n := by simp [updateBytes]

theorem updateBytes_getD (data : Word) (n p : Nat) (h : p < n) : (updateBytes data n).getD p 0 = lane data p := by
  simp [updateBytes, List.getD_eq_getElem?_getD, h]

/-! ## The padding loop -/

/-- The padding loop appends zero bytes, as many as bring `bufLen` to 56, if its bound allows that many. -/
theorem State.padZeros_eq_appendBytes (bound : Nat) :
    ∀ s : State, (120 - s.bufLen.val) % 64 ≤ bound →
      State.padZeros bound s = s.appendBytes (List.replicate ((120 - s.bufLen.val) % 64) 0x00) := by
  induction bound with
  | zero =>
    intro s h
    have h0 : (120 - s.bufLen.val) % 64 = 0 := by omega
    rw [h0]; rfl
  | succ n ih =>
    intro s h
    have := s.bufLen.isLt
    unfold State.padZeros
    split
    next h56 => rw [h56]; rfl
    next h56 =>
      have hlen := State.appendByte_bufLen s 0x00
      have hk : (120 - s.bufLen.val) % 64 = (120 - (s.appendByte 0x00).bufLen.val) % 64 + 1 := by
        rw [hlen]; omega
      rw [ih _ (by omega), hk, List.replicate_succ, State.appendBytes_cons]

/-- The zero bytes that Finalize() appends after the marker byte 0x80, for a message tail of `b` bytes (R107). -/
def finalZeros (b : Nat) : Nat := (119 - b) % 64

/-- The state in which Finalize() writes the length field: the marker and the zero bytes are appended. -/
def State.padded (s : State) : State := s.appendBytes (0x80 :: List.replicate (finalZeros s.bufLen.val) 0x00)

/-- Finalize() in OPEN: the padding bytes, the length field, the last compression (R100). -/
theorem State.completeDigest_eq (s : State) :
    s.completeDigest = { s.padded with Buf := writeLength s.padded.Buf s.bitLen }.lastBlock := by
  have hb := s.bufLen.isLt
  have hlen := State.appendByte_bufLen s 0x80
  have hk : (120 - (s.appendByte 0x80).bufLen.val) % 64 = finalZeros s.bufLen.val := by
    rw [hlen]; unfold finalZeros; omega
  unfold State.completeDigest State.padded
  rw [State.appendBytes_cons, State.padZeros_eq_appendBytes 64 _ (by omega), hk]

/-- The length field is written at offsets 56..63 (R104). -/
theorem State.padded_bufLen (s : State) : s.padded.bufLen.val = 56 := by
  have hb := s.bufLen.isLt
  simp only [State.padded, State.appendBytes_bufLen, List.length_cons, List.length_replicate, finalZeros]
  omega

/-- `H` after Finalize() in OPEN: the last block is compressed over what the padding left (R105). -/
theorem State.completeDigest_H (s : State) :
    s.completeDigest.H = compress s.padded.H (writeLength s.padded.Buf s.bitLen) := by
  rw [State.completeDigest_eq]; rfl

@[simp] theorem State.completeDigest_bufLen (s : State) : s.completeDigest.bufLen = 0 := rfl
@[simp] theorem State.completeDigest_finalized (s : State) : s.completeDigest.finalized = true := rfl
@[simp] theorem State.completeDigest_bitLen (s : State) : s.completeDigest.bitLen = s.bitLen := by
  rw [State.completeDigest_eq]; simp [State.padded]
@[simp] theorem State.completeDigest_lenOvf (s : State) : s.completeDigest.lenOvf = s.lenOvf := by
  rw [State.completeDigest_eq]; simp [State.padded]
@[simp] theorem State.completeDigest_ERR (s : State) : s.completeDigest.ERR = s.ERR := by
  rw [State.completeDigest_eq]; simp [State.padded]
@[simp] theorem State.completeDigest_DATA (s : State) : s.completeDigest.DATA = s.DATA := by
  rw [State.completeDigest_eq]; simp [State.padded]
@[simp] theorem State.completeDigest_pending (s : State) : s.completeDigest.pending = s.pending := by
  rw [State.completeDigest_eq]; simp [State.padded]
@[simp] theorem State.completeDigest_response (s : State) : s.completeDigest.response = s.response := by
  rw [State.completeDigest_eq]; simp [State.padded]
@[simp] theorem State.completeDigest_freeDraws (s : State) : s.completeDigest.freeDraws = s.freeDraws := by
  rw [State.completeDigest_eq]; simp [State.padded]
@[simp] theorem State.completeDigest_freeStream (s : State) : s.completeDigest.freeStream = s.freeStream := by
  rw [State.completeDigest_eq]; simp [State.padded]

/-! ## Finalize() in either phase -/

/-- Finalize() in DONE does nothing (R101). -/
theorem State.finalizeEngine_of_done {s : State} (h : s.finalized = true) : s.finalizeEngine = s := by
  simp [State.finalizeEngine, h]

/-- Finalize() in OPEN completes the digest (R100). -/
theorem State.finalizeEngine_of_open {s : State} (h : s.finalized = false) :
    s.finalizeEngine = s.completeDigest := by
  simp [State.finalizeEngine, h]

@[simp] theorem State.finalizeEngine_finalized (s : State) : s.finalizeEngine.finalized = true := by
  unfold State.finalizeEngine; split <;> simp_all
@[simp] theorem State.finalizeEngine_bitLen (s : State) : s.finalizeEngine.bitLen = s.bitLen := by
  unfold State.finalizeEngine; split <;> simp
@[simp] theorem State.finalizeEngine_lenOvf (s : State) : s.finalizeEngine.lenOvf = s.lenOvf := by
  unfold State.finalizeEngine; split <;> simp
@[simp] theorem State.finalizeEngine_ERR (s : State) : s.finalizeEngine.ERR = s.ERR := by
  unfold State.finalizeEngine; split <;> simp
@[simp] theorem State.finalizeEngine_DATA (s : State) : s.finalizeEngine.DATA = s.DATA := by
  unfold State.finalizeEngine; split <;> simp
@[simp] theorem State.finalizeEngine_pending (s : State) : s.finalizeEngine.pending = s.pending := by
  unfold State.finalizeEngine; split <;> simp
@[simp] theorem State.finalizeEngine_response (s : State) : s.finalizeEngine.response = s.response := by
  unfold State.finalizeEngine; split <;> simp
@[simp] theorem State.finalizeEngine_freeDraws (s : State) : s.finalizeEngine.freeDraws = s.freeDraws := by
  unfold State.finalizeEngine; split <;> simp
@[simp] theorem State.finalizeEngine_freeStream (s : State) : s.finalizeEngine.freeStream = s.freeStream := by
  unfold State.finalizeEngine; split <;> simp

/-! ## The length field -/

/-- Byte `j` of the buffer after the length field is written (R104). -/
theorem writeLength_get (buf : Block) (L : Len) (j : Nat) (hj : j < 64) :
    (writeLength buf L)[j] = if j < 56 then buf[j] else lengthByte L (j - 56) := by
  simp only [writeLength, List.finRange, List.ofFn_succ, List.ofFn_zero, List.foldl_cons, List.foldl_nil]
  simp only [Vector.getElem_set]
  have : j < 56 ∨ j = 56 ∨ j = 57 ∨ j = 58 ∨ j = 59 ∨ j = 60 ∨ j = 61 ∨ j = 62 ∨ j = 63 := by omega
  rcases this with h | h | h | h | h | h | h | h | h
  · have h1 : j < 56 := h
    simp [h1]
    grind
  all_goals subst h; simp

end Sys2Proof.Machine
end

