-- ==== Sys2Proof/Laws/Decode.lean ====
section
/-! SUPPORT. The decoder in numbers: the fields of a command word and the tests of spec/30_encoding.md R59 as
arithmetic on the word's value, and the eight words of R57 as the words without an error. -/

namespace Sys2Proof

/-! ## Fields -/

theorem commandOp_toNat (cmd : Word) : (commandOp cmd).toNat = cmd.toNat % 16 := by
  simp [commandOp]

theorem commandNBytes_val (cmd : Word) : (commandNBytes cmd).val = cmd.toNat / 16 % 8 := by
  simp [commandNBytes, Nat.shiftRight_eq_div_pow]

theorem reservedBits_toNat (cmd : Word) : (cmd.extractLsb' 7 25).toNat = cmd.toNat / 128 := by
  have := cmd.isLt
  simp only [BitVec.extractLsb'_toNat, Nat.shiftRight_eq_div_pow]
  omega

theorem upperBits_toNat (cmd : Word) : (cmd.extractLsb' 4 28).toNat = cmd.toNat / 16 := by
  have := cmd.isLt
  simp only [BitVec.extractLsb'_toNat, Nat.shiftRight_eq_div_pow]
  omega

theorem commandOp_eq_iff (cmd : Word) (op : BitVec 4) : commandOp cmd = op ↔ cmd.toNat % 16 = op.toNat := by
  rw [← BitVec.toNat_inj, commandOp_toNat]

theorem reservedBits_eq_zero_iff (cmd : Word) : cmd.extractLsb' 7 25 = 0 ↔ cmd.toNat / 128 = 0 := by
  rw [← BitVec.toNat_inj, reservedBits_toNat]; rfl

theorem upperBits_eq_zero_iff (cmd : Word) : cmd.extractLsb' 4 28 = 0 ↔ cmd.toNat / 16 = 0 := by
  rw [← BitVec.toNat_inj, upperBits_toNat]; rfl

/-! ## The tests on a command word -/

/-- R59's tests in numbers. -/
theorem commandError_eq (cmd : Word) :
    commandError cmd =
      if cmd.toNat % 16 = 2 then
        if cmd.toNat / 128 ≠ 0 ∨ 4 < cmd.toNat / 16 % 8 then some .invalidInputType else none
      else if cmd.toNat % 16 = 1 ∨ cmd.toNat % 16 = 3 ∨ cmd.toNat % 16 = 4 then
        if cmd.toNat / 16 ≠ 0 then some .illegalCommand else none
      else some .illegalCommand := by
  simp only [commandError, commandOp_eq_iff, ne_eq, reservedBits_eq_zero_iff, upperBits_eq_zero_iff,
    commandNBytes_val]
  rfl

/-- The eight words of R57 by their values. -/
theorem mem_commandWords_iff (cmd : Word) :
    cmd ∈ commandWords ↔
      cmd.toNat = 1 ∨ cmd.toNat = 2 ∨ cmd.toNat = 18 ∨ cmd.toNat = 34 ∨ cmd.toNat = 50 ∨ cmd.toNat = 66 ∨
        cmd.toNat = 3 ∨ cmd.toNat = 4 := by
  simp only [commandWords, List.mem_cons, List.not_mem_nil, or_false, ← BitVec.toNat_inj]
  rfl

/-- The words without an error are the eight of R57 (R60). -/
theorem commandError_eq_none_iff (cmd : Word) : commandError cmd = none ↔ cmd ∈ commandWords := by
  rw [commandError_eq, mem_commandWords_iff]
  have := cmd.isLt
  split
  · split <;> simp <;> omega
  · split
    · split <;> simp <;> omega
    · simp; omega

/-- The code of every other word (R60, R120). -/
theorem commandError_of_not_mem (cmd : Word) (h : cmd ∉ commandWords) :
    commandError cmd = some (if cmd.toNat % 16 = 2 then .invalidInputType else .illegalCommand) := by
  rw [mem_commandWords_iff] at h
  rw [commandError_eq]
  have := cmd.isLt
  split
  · rw [if_pos (by omega)]
  · split
    · rw [if_pos (by omega)]
    · rfl

/-! ## Commands -/

theorem decodeCommand_of_not_mem (cmd : Word) (h : cmd ∉ commandWords) :
    decodeCommand cmd = .error (if cmd.toNat % 16 = 2 then .invalidInputType else .illegalCommand) := by
  simp [decodeCommand, commandError_of_not_mem cmd h]

/-- Each of the eight words of R57 decodes to its command. -/
theorem decodeCommand_of_mem (cmd : Word) (h : cmd ∈ commandWords) :
    ∃ i, decodeCommand cmd = .ok i ∧ wellFormed i = true ∧ encode i = commandWrite cmd := by
  simp only [commandWords, List.mem_cons, List.not_mem_nil, or_false] at h
  rcases h with h | h | h | h | h | h | h | h <;> subst h
  · exact ⟨.init, rfl, rfl, rfl⟩
  · exact ⟨.update 0, rfl, rfl, rfl⟩
  · exact ⟨.update 1, rfl, rfl, rfl⟩
  · exact ⟨.update 2, rfl, rfl, rfl⟩
  · exact ⟨.update 3, rfl, rfl, rfl⟩
  · exact ⟨.update 4, rfl, rfl, rfl⟩
  · exact ⟨.finalize, rfl, rfl, rfl⟩
  · exact ⟨.clearErr, rfl, rfl, rfl⟩

/-- A command word decodes to one of the four commands, UPDATE with at most 4 bytes (R57). -/
theorem decodeCommand_command (cmd : Word) (h : cmd ∈ commandWords) :
    ∃ i, decodeCommand cmd = .ok i ∧ (i = .init ∨ (∃ n, i = .update n) ∨ i = .finalize ∨ i = .clearErr) := by
  simp only [commandWords, List.mem_cons, List.not_mem_nil, or_false] at h
  rcases h with h | h | h | h | h | h | h | h <;> subst h
  · exact ⟨.init, rfl, .inl rfl⟩
  · exact ⟨.update 0, rfl, .inr (.inl ⟨0, rfl⟩)⟩
  · exact ⟨.update 1, rfl, .inr (.inl ⟨1, rfl⟩)⟩
  · exact ⟨.update 2, rfl, .inr (.inl ⟨2, rfl⟩)⟩
  · exact ⟨.update 3, rfl, .inr (.inl ⟨3, rfl⟩)⟩
  · exact ⟨.update 4, rfl, .inr (.inl ⟨4, rfl⟩)⟩
  · exact ⟨.finalize, rfl, .inr (.inr (.inl rfl))⟩
  · exact ⟨.clearErr, rfl, .inr (.inr (.inr rfl))⟩

/-- A write of a word to CMD decodes to its command, or to WCMD where its form is rejected. -/
theorem decode_commandWrite (cmd : Word) :
    decode (commandWrite cmd) =
      match decodeCommand cmd with
      | .ok i => .ok i
      | .error _ => .ok (.wcmd cmd) := rfl

theorem decode_commandWrite_of_not_mem (cmd : Word) (h : cmd ∉ commandWords) :
    decode (commandWrite cmd) = .ok (.wcmd cmd) := by
  rw [decode_commandWrite, decodeCommand_of_not_mem cmd h]

end Sys2Proof
end

