-- ==== Sys2Proof/Laws/Exec.lean ====
section
/-! SUPPORT. What each instruction and each step answers, case by case: one equation per case, which later proofs cite
instead of unfolding a meaning. -/

namespace Sys2Proof.Machine

/-! ## Instructions -/

theorem exec_init (s : State) : exec .init s = .next (s.newEngine.respond .writeDone) := rfl
theorem exec_clearErr (s : State) : exec .clearErr s = .next (s.clearError.respond .writeDone) := rfl
theorem exec_wdata (v : Word) (s : State) : exec (.wdata v) s = .next { s with DATA := v, response := .writeDone } := rfl
theorem exec_rdata (s : State) : exec .rdata s = .next (s.respond (.readData s.DATA)) := rfl
theorem exec_rstatus (s : State) : exec .rstatus s = .next (s.respond (.readData (statusWord s))) := rfl
theorem exec_rlenlo (s : State) : exec .rlenlo s = .next (s.respond (.readData (s.bitLen.extractLsb' 0 32))) := rfl
theorem exec_rlenhi (s : State) : exec .rlenhi s = .next (s.respond (.readData (s.bitLen.extractLsb' 32 32))) := rfl
theorem exec_finalize (s : State) : exec .finalize s = .next (s.finalizeEngine.respond .writeDone) := rfl
theorem exec_rdigest (k : Fin 4) (s : State) :
    exec (.rdigest k) s = .next (s.finalizeEngine.respond (.readData s.finalizeEngine.H[k])) := rfl
theorem exec_rhex (k : Fin 8) (s : State) :
    exec (.rhex k) s = .next (s.finalizeEngine.respond (.readData (hexWord s.finalizeEngine.H k))) := rfl

/-- An accepted UPDATE (R71). -/
theorem exec_update_accepted {n : Fin 8} {s : State} (hn : n.val ≤ 4) (hf : s.finalized = false) :
    exec (.update n) s = .next ((s.acceptUpdate n.val).respond .writeDone) := by
  show execUpdate n s = _
  rw [execUpdate, if_neg (by omega), hf]; rfl

/-- A malformed UPDATE (R122). -/
theorem exec_update_malformed {n : Fin 8} (s : State) (hn : 4 < n.val) :
    exec (.update n) s = .next (s.reject .invalidInputType) := by
  show execUpdate n s = _
  rw [execUpdate, if_pos hn]

/-- An UPDATE in DONE (R123). -/
theorem exec_update_done {n : Fin 8} {s : State} (hn : n.val ≤ 4) (hf : s.finalized = true) :
    exec (.update n) s = .next (s.reject .invalidState) := by
  show execUpdate n s = _
  rw [execUpdate, if_neg (by omega), hf]; rfl

/-- A malformed command word is rejected (R60, R121). -/
theorem exec_wcmd_rejected {cmd : Word} (s : State) (h : cmd ∉ commandWords) :
    exec (.wcmd cmd) s =
      .next (s.reject (if cmd.toNat % 16 = 2 then .invalidInputType else .illegalCommand)) := by
  show execWcmd cmd s = _
  rw [execWcmd, commandError_of_not_mem cmd h]

/-- A well-formed word written through WCMD runs its command (R59). -/
theorem exec_wcmd_command {cmd : Word} {i : Instr} (s : State) (h : decodeCommand cmd = .ok i) :
    exec (.wcmd cmd) s = exec i s := by
  show execWcmd cmd s = _
  cases hE : commandError cmd with
  | some code => simp [decodeCommand, hE] at h
  | none =>
    simp only [decodeCommand, hE] at h
    simp only [execWcmd, hE]
    by_cases h1 : commandOp cmd = 0x1
    · rw [if_pos h1] at h ⊢; cases h; rfl
    · rw [if_neg h1] at h ⊢
      by_cases h2 : commandOp cmd = 0x2
      · rw [if_pos h2] at h ⊢; cases h; rfl
      · rw [if_neg h2] at h ⊢
        by_cases h3 : commandOp cmd = 0x3
        · rw [if_pos h3] at h ⊢; cases h; rfl
        · rw [if_neg h3] at h ⊢; cases h; rfl

/-! ## An accepted UPDATE, field by field -/

@[simp] theorem State.acceptUpdate_pending (s : State) (n : Nat) : (s.acceptUpdate n).pending = s.pending := by
  simp [State.acceptUpdate]
@[simp] theorem State.acceptUpdate_finalized (s : State) (n : Nat) : (s.acceptUpdate n).finalized = s.finalized := by
  simp [State.acceptUpdate]
@[simp] theorem State.acceptUpdate_ERR (s : State) (n : Nat) : (s.acceptUpdate n).ERR = s.ERR := by
  simp [State.acceptUpdate]
@[simp] theorem State.acceptUpdate_DATA (s : State) (n : Nat) : (s.acceptUpdate n).DATA = s.DATA := by
  simp [State.acceptUpdate]
@[simp] theorem State.acceptUpdate_bitLen (s : State) (n : Nat) :
    (s.acceptUpdate n).bitLen = lengthAfter s.bitLen n := by
  simp [State.acceptUpdate]
@[simp] theorem State.acceptUpdate_lenOvf (s : State) (n : Nat) :
    (s.acceptUpdate n).lenOvf = lenOvfAfter s.lenOvf s.bitLen n := by
  simp [State.acceptUpdate]

/-- `Buf` after an accepted UPDATE of at most 64 bytes: the operand bytes at the next places, going on at place 0 after
place 63; every other byte unchanged. -/
theorem State.acceptUpdate_Buf (s : State) (n : Nat) (hn : n ≤ 64) (j : Nat) (hj : j < 64) :
    (s.acceptUpdate n).Buf[j] =
      if (j + 64 - s.bufLen.val) % 64 < n then lane s.DATA ((j + 64 - s.bufLen.val) % 64) else s.Buf[j] := by
  rw [State.acceptUpdate, State.appendBytes_Buf _ _ (by rw [updateBytes_length]; exact hn) _ hj, updateBytes_length,
    State.advanceLength_bufLen, State.advanceLength_Buf]
  by_cases h : (j + 64 - s.bufLen.val) % 64 < n
  · rw [if_pos h, if_pos h, updateBytes_getD _ _ _ h]
  · rw [if_neg h, if_neg h]

/-- `H` after an accepted UPDATE that does not fill the buffer. -/
theorem State.acceptUpdate_H_of_lt (s : State) (n : Nat) (h : s.bufLen.val + n < 64) : (s.acceptUpdate n).H = s.H := by
  rw [State.acceptUpdate, State.appendBytes_H_of_lt _ _ (by rw [updateBytes_length]; exact h), State.advanceLength_H]

/-- `H` after an accepted UPDATE that fills the buffer once: the full block is compressed (R78). -/
theorem State.acceptUpdate_H_of_ge (s : State) (n : Nat) (h : 64 ≤ s.bufLen.val + n) (hn : n ≤ 64) :
    (s.acceptUpdate n).H = compress s.H (Vector.ofFn fun j =>
      if j.val < s.bufLen.val then s.Buf[j] else lane s.DATA (j.val - s.bufLen.val)) := by
  have hb := s.bufLen.isLt
  rw [State.acceptUpdate, State.appendBytes_H_of_ge _ _ (by rw [updateBytes_length]; exact h)
    (by rw [updateBytes_length, State.advanceLength_bufLen]; omega), State.advanceLength_H,
    State.advanceLength_bufLen, State.advanceLength_Buf]
  refine congrArg _ (Vector.ext ?_)
  intro j hj
  rw [Vector.getElem_ofFn, Vector.getElem_ofFn]
  simp only
  by_cases h1 : j < s.bufLen.val
  · rw [if_pos h1, if_pos h1]
  · rw [if_neg h1, if_neg h1, updateBytes_getD _ _ _ (by omega)]

/-! ## Everything an instruction can do -/

/-- The effects an instruction can have, one constructor each. -/
inductive ExecEffect : Instr → State → State → Prop where
  | plainRead {i : Instr} {s : State} (r : Response) (hi : i = .rdata ∨ i = .rstatus ∨ i = .rlenlo ∨ i = .rlenhi) :
      ExecEffect i s (s.respond r)
  | dataWrite {i : Instr} {s : State} (v : Word) (hi : i = .wdata v) : ExecEffect i s { s with DATA := v, response := .writeDone }
  | newEngine {i : Instr} {s : State} (hi : i = .init) : ExecEffect i s (s.newEngine.respond .writeDone)
  | clearError {i : Instr} {s : State} (hi : i = .clearErr) : ExecEffect i s (s.clearError.respond .writeDone)
  | finalize {i : Instr} {s : State} (r : Response) (hi : i = .finalize ∨ (∃ k, i = .rdigest k) ∨ ∃ k, i = .rhex k) :
      ExecEffect i s (s.finalizeEngine.respond r)
  | updateAccepted {i : Instr} {s : State} (n : Fin 8) (hi : i = .update n) (hn : n.val ≤ 4) (hf : s.finalized = false) :
      ExecEffect i s ((s.acceptUpdate n.val).respond .writeDone)
  | updateInDone {i : Instr} {s : State} (n : Fin 8) (hi : i = .update n) (hn : n.val ≤ 4) (hf : s.finalized = true) :
      ExecEffect i s (s.reject .invalidState)
  | updateMalformed {i : Instr} {s : State} (n : Fin 8) (hi : i = .update n) (hn : 4 < n.val) :
      ExecEffect i s (s.reject .invalidInputType)
  | commandMalformed {i : Instr} {s : State} (cmd : Word) (hi : i = .wcmd cmd) (hc : cmd ∉ commandWords) :
      ExecEffect i s (s.reject (if cmd.toNat % 16 = 2 then .invalidInputType else .illegalCommand))
  | command {i : Instr} {s : State} (cmd : Word) (j : Instr) (t : State) (hi : i = .wcmd cmd) (hj : decodeCommand cmd = .ok j)
      (ht : exec j s = .next t) (he : ExecEffect j s t) : ExecEffect i s t

/-- A command's own effect: INIT, UPDATE, FINALIZE and CLEAR_ERR. -/
theorem execEffect_of_command (s : State) (j : Instr)
    (hj : j = .init ∨ (∃ n, j = .update n) ∨ j = .finalize ∨ j = .clearErr) :
    ∃ t, exec j s = .next t ∧ ExecEffect j s t := by
  rcases hj with rfl | ⟨n, rfl⟩ | rfl | rfl
  · exact ⟨_, exec_init s, .newEngine rfl⟩
  · by_cases hn : n.val ≤ 4
    · cases hf : s.finalized with
      | true => exact ⟨_, exec_update_done hn hf, .updateInDone n rfl hn hf⟩
      | false => exact ⟨_, exec_update_accepted hn hf, .updateAccepted n rfl hn hf⟩
    · exact ⟨_, exec_update_malformed s (by omega), .updateMalformed n rfl (by omega)⟩
  · exact ⟨_, exec_finalize s, .finalize _ (.inl rfl)⟩
  · exact ⟨_, exec_clearErr s, .clearError rfl⟩

/-- Every instruction answers a next state, by one of its effects. -/
theorem exec_effect (i : Instr) (s : State) : ∃ t, exec i s = .next t ∧ ExecEffect i s t := by
  cases i with
  | init => exact execEffect_of_command s _ (.inl rfl)
  | update n => exact execEffect_of_command s _ (.inr (.inl ⟨n, rfl⟩))
  | finalize => exact execEffect_of_command s _ (.inr (.inr (.inl rfl)))
  | clearErr => exact execEffect_of_command s _ (.inr (.inr (.inr rfl)))
  | wcmd cmd =>
    by_cases hc : cmd ∈ commandWords
    · obtain ⟨j, hj, hcmd⟩ := decodeCommand_command cmd hc
      obtain ⟨t, ht, he⟩ := execEffect_of_command s j hcmd
      exact ⟨t, (exec_wcmd_command s hj).trans ht, .command cmd j t rfl hj ht he⟩
    · exact ⟨_, exec_wcmd_rejected s hc, .commandMalformed cmd rfl hc⟩
  | wdata v => exact ⟨_, exec_wdata v s, .dataWrite v rfl⟩
  | rdata => exact ⟨_, exec_rdata s, .plainRead _ (.inl rfl)⟩
  | rstatus => exact ⟨_, exec_rstatus s, .plainRead _ (.inr (.inl rfl))⟩
  | rlenlo => exact ⟨_, exec_rlenlo s, .plainRead _ (.inr (.inr (.inl rfl)))⟩
  | rlenhi => exact ⟨_, exec_rlenhi s, .plainRead _ (.inr (.inr (.inr rfl)))⟩
  | rdigest k => exact ⟨_, exec_rdigest k s, .finalize _ (.inr (.inl ⟨k, rfl⟩))⟩
  | rhex k => exact ⟨_, exec_rhex k s, .finalize _ (.inr (.inr ⟨k, rfl⟩))⟩

/-- The inversion lemma of `exec`: a next state is one of the instruction's effects. -/
theorem execEffect_of_next {i : Instr} {s t : State} (h : exec i s = .next t) : ExecEffect i s t := by
  obtain ⟨u, hu, he⟩ := exec_effect i s
  rw [hu] at h
  cases h
  exact he

/-- Every instruction answers a next state and leaves the port's queue alone. -/
theorem exec_next (i : Instr) (s : State) : ∃ t, exec i s = .next t ∧ t.pending = s.pending := by
  obtain ⟨t, ht, he⟩ := exec_effect i s
  refine ⟨t, ht, ?_⟩
  clear ht
  induction he with
  | command cmd j t hi hj ht he ih => exact ih
  | _ => simp

/-! ## Steps -/

theorem step_of_nil {s : State} (h : s.pending = []) : step s = .next s := by
  simp [step, State.takeInput, h]

theorem step_of_decoded {s : State} {t : Transaction} {rest : List HostInput} {i : Instr}
    (h : s.pending = .transaction t :: rest) (hd : decode t = .ok i) :
    step s = exec i { s with pending := rest } := by
  simp [step, State.takeInput, h, hd]

theorem step_of_malformed {s : State} {t : Transaction} {rest : List HostInput} {c : BusErrorCause}
    (h : s.pending = .transaction t :: rest) (hd : decode t = .error c) :
    step s = .next { s with pending := rest, response := .busError } := by
  simp [step, State.takeInput, h, hd]; rfl

theorem step_of_reset {s : State} {rest : List HostInput} (h : s.pending = .reset :: rest) :
    step s = .next ({ s with pending := rest } : State).applyReset := by
  simp [step, State.takeInput, h]

theorem step_of_resetDuring {s : State} {x : Transaction} {rest : List HostInput}
    (h : s.pending = .resetDuring x :: rest) :
    step s = .next (({ s with pending := rest } : State).interruptByReset x) := by
  simp [step, State.takeInput, h]

/-- Everything a step can do: idle, run a decoded instruction, a bus error, or a reset. -/
theorem step_cases (s : State) :
    (s.pending = [] ∧ step s = .next s) ∨
    (∃ x rest i, s.pending = .transaction x :: rest ∧ decode x = .ok i ∧
      step s = exec i { s with pending := rest }) ∨
    (∃ x rest c, s.pending = .transaction x :: rest ∧ decode x = .error c ∧
      step s = .next { s with pending := rest, response := .busError }) ∨
    (∃ rest, s.pending = .reset :: rest ∧ step s = .next ({ s with pending := rest } : State).applyReset) ∨
    (∃ x rest, s.pending = .resetDuring x :: rest ∧
      step s = .next (({ s with pending := rest } : State).interruptByReset x)) := by
  cases hp : s.pending with
  | nil => exact .inl ⟨rfl, step_of_nil hp⟩
  | cons input rest =>
    cases input with
    | transaction x =>
      cases hd : decode x with
      | ok i => exact .inr (.inl ⟨x, rest, i, rfl, hd, step_of_decoded hp hd⟩)
      | error c => exact .inr (.inr (.inl ⟨x, rest, c, rfl, hd, step_of_malformed hp hd⟩))
    | reset => exact .inr (.inr (.inr (.inl ⟨rest, rfl, step_of_reset hp⟩)))
    | resetDuring x => exact .inr (.inr (.inr (.inr ⟨x, rest, rfl, step_of_resetDuring hp⟩)))

end Sys2Proof.Machine
end

