-- ==== Sys2Proof/Laws/Message.lean ====
section
/-! SUPPORT. The buffer controller against the message as a whole (spec/41_update.md R75, R77): AppendByte extends the
message a state has buffered, Finalize() completes its digest, and the length counter follows (R73). -/

namespace Sys2Proof.Machine

/-! ## Blocks of a byte string -/

/-- Byte `j` of block `i`. -/
theorem blockAt_get (m : List Byte) (i j : Nat) (hj : j < 64) : (blockAt m i)[j] = m.getD (64 * i + j) 0 := by
  simp [blockAt]

/-- A block that lies whole in the first part of a string does not see what follows. -/
theorem blockAt_append (m r : List Byte) (i : Nat) (h : 64 * i + 64 ≤ m.length) :
    blockAt (m ++ r) i = blockAt m i := by
  apply Vector.ext
  intro j hj
  rw [blockAt_get _ _ _ hj, blockAt_get _ _ _ hj]
  simp only [List.getD_eq_getElem?_getD]
  rw [List.getElem?_append_left (by omega)]

/-- Compressing the first `n` blocks does not see what follows them. -/
theorem foldl_blockAt_append (m r : List Byte) (n : Nat) (h : 64 * n ≤ m.length) (H : Accumulator) :
    (List.range n).foldl (fun H i => compress H (blockAt (m ++ r) i)) H =
      (List.range n).foldl (fun H i => compress H (blockAt m i)) H := by
  induction n with
  | zero => simp
  | succ n ih =>
    rw [List.range_succ, List.foldl_append, List.foldl_append, ih (by omega)]
    simp only [List.foldl_cons, List.foldl_nil]
    rw [blockAt_append m r n (by omega)]

/-- Bytes that do not complete a block leave the chaining value. -/
theorem hashBlocks_append_same (m r : List Byte) (h : (m ++ r).length / 64 = m.length / 64) :
    hashBlocks (m ++ r) = hashBlocks m := by
  unfold hashBlocks
  rw [h, foldl_blockAt_append m r _ (by omega)]

/-- Bytes that complete one block add one compression. -/
theorem hashBlocks_append_succ (m r : List Byte) (h : (m ++ r).length / 64 = m.length / 64 + 1) :
    hashBlocks (m ++ r) = compress (hashBlocks m) (blockAt (m ++ r) (m.length / 64)) := by
  unfold hashBlocks
  rw [h, List.range_succ, List.foldl_append, foldl_blockAt_append m r _ (by omega)]
  rfl

/-! ## Appending -/

/-- The meaningful bytes after AppendByte, as long as it does not fill the buffer. -/
theorem Buffered.tail_get {s : State} {m : List Byte} (hb : Buffered s m) (x : Byte) (j : Nat)
    (hj : j ≤ s.bufLen.val) :
    (s.Buf.set s.bufLen.val x s.bufLen.isLt)[j]'(by have := s.bufLen.isLt; omega) =
      (m ++ [x]).getD (64 * (m.length / 64) + j) 0 := by
  have hlen := hb.bufLen
  rw [Vector.getElem_set]
  simp only [List.getD_eq_getElem?_getD]
  split
  next h => subst h; rw [List.getElem?_append_right (by omega)]; simp [show 64 * (m.length / 64) + s.bufLen.val - m.length = 0 by omega]
  next h =>
    rw [hb.Buf j (by omega), List.getElem?_append_left (by omega), List.getD_eq_getElem?_getD]

/-- AppendByte extends the buffered message by its byte (R75, R77). -/
theorem Buffered.appendByte {s : State} {m : List Byte} (hb : Buffered s m) (x : Byte) :
    Buffered (s.appendByte x) (m ++ [x]) := by
  have hlen := hb.bufLen
  have hlt := s.bufLen.isLt
  have hx : (m ++ [x]).length = m.length + 1 := by simp
  by_cases hfull : s.bufLen.val = 63
  · have hdiv : (m ++ [x]).length / 64 = m.length / 64 + 1 := by omega
    refine ⟨by rw [State.appendByte_bufLen]; omega, ?_, ?_⟩
    · rw [State.appendByte_H, if_pos hfull, hashBlocks_append_succ m [x] hdiv, hb.H]
      refine congrArg _ (Vector.ext ?_)
      intro j hj
      rw [hb.tail_get x j (by omega), blockAt_get _ _ _ hj]
    · intro j h
      rw [State.appendByte_bufLen] at h
      omega
  · have hdiv : (m ++ [x]).length / 64 = m.length / 64 := by omega
    refine ⟨by rw [State.appendByte_bufLen]; omega, ?_, ?_⟩
    · rw [State.appendByte_H, if_neg hfull, hashBlocks_append_same m [x] hdiv, hb.H]
    · intro j h
      rw [State.appendByte_bufLen] at h
      simp only [State.appendByte_Buf]
      rw [hb.tail_get x j (by omega), hdiv]

/-- Appending bytes extends the buffered message by them. -/
theorem Buffered.appendBytes (xs : List Byte) :
    ∀ {s : State} {m : List Byte}, Buffered s m → Buffered (s.appendBytes xs) (m ++ xs) := by
  induction xs with
  | nil => intro s m hb; simpa using hb
  | cons x xs ih =>
    intro s m hb
    have := ih (hb.appendByte x)
    simpa using this

/-- `Buffered` sees H, Buf and bufLen only. -/
theorem Buffered.of_eq {s t : State} {m : List Byte} (hb : Buffered s m) (h1 : t.H = s.H) (h2 : t.Buf = s.Buf)
    (h3 : t.bufLen = s.bufLen) : Buffered t m := by
  refine ⟨by rw [h3]; exact hb.bufLen, by rw [h1]; exact hb.H, ?_⟩
  intro j h
  simp only [h2]
  exact hb.Buf j (by rw [← h3]; exact h)

/-! ## Finalize -/

theorem lengthBytes_length (L : Len) : (lengthBytes L).length = 8 := by simp [lengthBytes]

theorem lengthBytes_getD (L : Len) (j : Nat) (h : j < 8) : (lengthBytes L).getD j 0 = lengthByte L j := by
  simp [lengthBytes, List.getD_eq_getElem?_getD, h]

/-- The zero bytes of the padding, from the tail's length or from the message's (R107, R108). -/
theorem finalZeros_eq_zeroCount (len : Nat) : finalZeros (len % 64) = zeroCount len := rfl

/-- Finalize() in OPEN completes the digest of the buffered message (R100, R108). -/
theorem Buffered.completeDigest {s : State} {m : List Byte} (hb : Buffered s m)
    (hL : s.bitLen = BitVec.ofNat 64 (8 * m.length)) : Completed s.completeDigest m := by
  have hpad : Buffered s.padded (m ++ (0x80 :: List.replicate (zeroCount m.length) 0x00)) := by
    have := hb.appendBytes (0x80 :: List.replicate (finalZeros s.bufLen.val) 0x00)
    rw [hb.bufLen, finalZeros_eq_zeroCount] at this
    simpa [State.padded, hb.bufLen, finalZeros_eq_zeroCount] using this
  generalize hp : m ++ (0x80 :: List.replicate (zeroCount m.length) 0x00) = p at hpad
  have h56 := State.padded_bufLen s
  have hmod : p.length % 64 = 56 := by rw [← hpad.bufLen, h56]
  have hm : padMessage m = p ++ lengthBytes s.bitLen := by
    rw [← hp, hL]; simp [padMessage]
  have hdiv : (p ++ lengthBytes s.bitLen).length / 64 = p.length / 64 + 1 := by
    rw [List.length_append, lengthBytes_length]; omega
  refine ⟨rfl, ?_⟩
  rw [digestWords, hm, hashBlocks_append_succ _ _ hdiv, State.completeDigest_eq, State.lastBlock_H, hpad.H]
  refine congrArg _ (Vector.ext ?_)
  intro j hj
  rw [writeLength_get _ _ _ hj, blockAt_get _ _ _ hj]
  simp only [List.getD_eq_getElem?_getD]
  split
  next h =>
    rw [hpad.Buf j (by omega), List.getElem?_append_left (by omega), List.getD_eq_getElem?_getD]
  next h =>
    rw [List.getElem?_append_right (by omega), ← List.getD_eq_getElem?_getD,
      lengthBytes_getD _ _ (by omega)]
    congr 1
    omega

/-! ## The blocks a finalize compresses -/

/-- How many bytes Finalize() appends before the length field. -/
theorem padBytes_length (b : Nat) :
    (0x80 :: List.replicate (finalZeros b) (0x00 : Byte)).length = finalZeros b + 1 := by simp

/-- Every byte appended after the marker is zero. -/
theorem padBytes_getD (b j : Nat) (h : 0 < j) : (0x80 :: List.replicate (finalZeros b) (0x00 : Byte)).getD j 0 = 0 := by
  obtain ⟨i, rfl⟩ : ∃ i, j = i + 1 := ⟨j - 1, by omega⟩
  simp [List.getD_eq_getElem?_getD]

/-- Finalize() from at most 55 buffered bytes compresses one block (R107). -/
theorem State.completeDigest_H_oneBlock (s : State) (h : s.bufLen.val ≤ 55) :
    s.completeDigest.H = compress s.H (onlyFinalBlock s) := by
  have hz : finalZeros s.bufLen.val = 55 - s.bufLen.val := by unfold finalZeros; omega
  rw [State.completeDigest_H, State.padded, State.appendBytes_H_of_lt _ _ (by rw [padBytes_length]; omega)]
  refine congrArg _ (Vector.ext ?_)
  intro j hj
  simp only [onlyFinalBlock, Vector.getElem_ofFn]
  rw [writeLength_get _ _ _ hj, State.appendBytes_Buf _ _ (by rw [padBytes_length]; omega) j hj, padBytes_length]
  by_cases h1 : j < s.bufLen.val
  · rw [if_pos (by omega), if_pos h1, if_neg (by omega)]; rfl
  · rw [if_neg h1]
    by_cases h2 : j = s.bufLen.val
    · rw [if_pos (by omega), if_pos h2, if_pos (by omega), show (j + 64 - s.bufLen.val) % 64 = 0 by omega]; rfl
    · rw [if_neg h2]
      by_cases h3 : j < 56
      · rw [if_pos h3, if_pos h3, if_pos (by omega), padBytes_getD _ _ (by omega)]
      · rw [if_neg h3, if_neg h3]

/-- Finalize() from 56 to 63 buffered bytes compresses two blocks (R107). -/
theorem State.completeDigest_H_twoBlocks (s : State) (h : 56 ≤ s.bufLen.val) :
    s.completeDigest.H = compress (compress s.H (firstFinalBlock s)) (secondFinalBlock s) := by
  have hb := s.bufLen.isLt
  have hz : finalZeros s.bufLen.val = 119 - s.bufLen.val := by unfold finalZeros; omega
  rw [State.completeDigest_H, State.padded,
    State.appendBytes_H_of_ge _ _ (by rw [padBytes_length]; omega) (by rw [padBytes_length]; omega)]
  refine congrArg₂ compress (congrArg _ (Vector.ext ?_)) (Vector.ext ?_)
  · intro j hj
    simp only [firstFinalBlock, Vector.getElem_ofFn]
    by_cases h1 : j < s.bufLen.val
    · rw [if_pos h1, if_pos h1]
    · rw [if_neg h1, if_neg h1]
      by_cases h2 : j = s.bufLen.val
      · rw [if_pos h2, show j - s.bufLen.val = 0 by omega]; rfl
      · rw [if_neg h2, padBytes_getD _ _ (by omega)]
  · intro j hj
    simp only [secondFinalBlock, Vector.getElem_ofFn]
    rw [writeLength_get _ _ _ hj]
    split
    next h56 =>
      rw [State.appendBytes_Buf _ _ (by rw [padBytes_length]; omega) j hj, padBytes_length, if_pos (by omega),
        padBytes_getD _ _ (by omega)]
    · rfl

/-! ## The length counter -/

/-- The counter after `n` more bytes is the bit length of the longer message (R18, R73). -/
theorem lengthAfter_ofNat (len n : Nat) :
    lengthAfter (BitVec.ofNat 64 (8 * len)) n = BitVec.ofNat 64 (8 * (len + n)) := by
  apply BitVec.eq_of_toNat_eq
  simp only [lengthAfter, lengthSum, BitVec.toNat_ofNat]
  omega

/-- LEN_OVF after `n` more bytes says whether the longer message has 2^64 bits or more (R20, R73). -/
theorem lenOvfAfter_decide (len n : Nat) :
    lenOvfAfter (decide (2 ^ 64 ≤ 8 * len)) (BitVec.ofNat 64 (8 * len)) n = decide (2 ^ 64 ≤ 8 * (len + n)) := by
  rw [Bool.eq_iff_iff]
  simp only [lenOvfAfter, lengthSum, BitVec.toNat_ofNat, Bool.or_eq_true, decide_eq_true_eq]
  omega

/-! ## The operations on a state that holds a message -/

/-- A state that agrees on the engine's fields holds the same message. -/
theorem Represents.of_eq {s t : State} {m : List Byte} (h : Represents s m) (h1 : t.H = s.H) (h2 : t.Buf = s.Buf)
    (h3 : t.bufLen = s.bufLen) (h4 : t.bitLen = s.bitLen) (h5 : t.lenOvf = s.lenOvf)
    (h6 : t.finalized = s.finalized) : Represents t m := by
  refine ⟨by rw [h4]; exact h.bitLen, by rw [h5]; exact h.lenOvf, ?_, ?_⟩
  · intro hf; exact (h.inOpen (by rw [← h6]; exact hf)).of_eq h1 h2 h3
  · intro hf
    have hd := h.inDone (by rw [← h6]; exact hf)
    exact ⟨by rw [h3]; exact hd.bufLen, by rw [h1]; exact hd.H⟩

/-- An OPEN state with IV, an empty buffer and length 0 holds the empty message (R33). -/
theorem represents_empty {s : State} (h1 : s.H = iv) (h2 : s.bufLen = 0) (h3 : s.bitLen = 0)
    (h4 : s.lenOvf = false) (h5 : s.finalized = false) : Represents s [] := by
  refine ⟨by rw [h3]; rfl, by rw [h4]; rfl, fun _ => ⟨by rw [h2]; rfl, by rw [h1]; rfl, ?_⟩, ?_⟩
  · intro j h; rw [h2] at h; exact absurd h (by simp)
  · intro hf; rw [h5] at hf; exact absurd hf (by decide)

/-- An accepted UPDATE extends the message by its bytes (R72, R73, R77). -/
theorem Represents.acceptUpdate {s : State} {m : List Byte} (h : Represents s m) (hf : s.finalized = false)
    (n : Nat) : Represents (s.acceptUpdate n) (m ++ updateBytes s.DATA n) := by
  have hbuf : Buffered (s.advanceLength n) m := (h.inOpen hf).of_eq rfl rfl rfl
  refine ⟨?_, ?_, fun _ => hbuf.appendBytes _, ?_⟩
  · simp only [State.acceptUpdate, State.appendBytes_bitLen, State.advanceLength_bitLen, h.bitLen,
      List.length_append, updateBytes_length]
    exact lengthAfter_ofNat _ _
  · simp only [State.acceptUpdate, State.appendBytes_lenOvf, State.advanceLength_lenOvf, h.bitLen, h.lenOvf,
      List.length_append, updateBytes_length]
    exact lenOvfAfter_decide _ _
  · intro hd
    simp [State.acceptUpdate, hf] at hd

/-- Finalize() keeps the message, in either phase (R99, R101). -/
theorem Represents.finalizeEngine {s : State} {m : List Byte} (h : Represents s m) :
    Represents s.finalizeEngine m := by
  cases hf : s.finalized with
  | true => rw [State.finalizeEngine_of_done hf]; exact h
  | false =>
    rw [State.finalizeEngine_of_open hf]
    refine ⟨by simpa using h.bitLen, by simpa using h.lenOvf, ?_, fun _ => (h.inOpen hf).completeDigest h.bitLen⟩
    intro hd
    simp at hd

end Sys2Proof.Machine
end

