-- ==== Sys2Proof/Laws/PerInstr.lean ====
section
/-! SUPPORT. Facts about every instruction as syntax, one lemma per constructor. -/

namespace Sys2Proof.Laws

/-- The transaction of every instruction is a 4-byte access at an aligned offset (R55, R61). -/
def EncodedForm.Statement (i : Instr) : Prop := (encode i).size = 4 ∧ (encode i).offset.toNat % 4 = 0

theorem EncodedForm.init : EncodedForm.Statement .init := ⟨rfl, rfl⟩
theorem EncodedForm.update (n : Fin 8) : EncodedForm.Statement (.update n) := ⟨rfl, rfl⟩
theorem EncodedForm.finalize : EncodedForm.Statement .finalize := ⟨rfl, rfl⟩
theorem EncodedForm.clearErr : EncodedForm.Statement .clearErr := ⟨rfl, rfl⟩
theorem EncodedForm.wcmd (cmd : Word) : EncodedForm.Statement (.wcmd cmd) := ⟨rfl, rfl⟩
theorem EncodedForm.wdata (v : Word) : EncodedForm.Statement (.wdata v) :=
  ⟨rfl, show (0x04#8).toNat % 4 = 0 by decide⟩
theorem EncodedForm.rdata : EncodedForm.Statement .rdata := ⟨rfl, rfl⟩
theorem EncodedForm.rstatus : EncodedForm.Statement .rstatus := ⟨rfl, rfl⟩
theorem EncodedForm.rlenlo : EncodedForm.Statement .rlenlo := ⟨rfl, rfl⟩
theorem EncodedForm.rlenhi : EncodedForm.Statement .rlenhi := ⟨rfl, rfl⟩
theorem EncodedForm.rdigest (k : Fin 4) : EncodedForm.Statement (.rdigest k) :=
  ⟨rfl, (show ∀ k : Fin 4, (encode (.rdigest k)).offset.toNat % 4 = 0 by decide) k⟩
theorem EncodedForm.rhex (k : Fin 8) : EncodedForm.Statement (.rhex k) :=
  ⟨rfl, (show ∀ k : Fin 8, (encode (.rhex k)).offset.toNat % 4 = 0 by decide) k⟩

end Sys2Proof.Laws
end

