-- ==== Sys2Proof/Laws/Platform.lean ====
section
/-! SUPPORT. The reset state of a core of a platform field by field, and where the windows of the cores lie. -/

namespace Sys2Proof.Machine

@[simp] theorem coreReset_H (k : Nat) : (coreReset k).H = iv := rfl
@[simp] theorem coreReset_Buf (k : Nat) : (coreReset k).Buf = Config.freeBlock k 0 := rfl
@[simp] theorem coreReset_bufLen (k : Nat) : (coreReset k).bufLen = 0 := rfl
@[simp] theorem coreReset_bitLen (k : Nat) : (coreReset k).bitLen = 0 := rfl
@[simp] theorem coreReset_finalized (k : Nat) : (coreReset k).finalized = false := rfl
@[simp] theorem coreReset_lenOvf (k : Nat) : (coreReset k).lenOvf = false := rfl
@[simp] theorem coreReset_ERR (k : Nat) : (coreReset k).ERR = .none := rfl
@[simp] theorem coreReset_DATA (k : Nat) : (coreReset k).DATA = 0x00000000 := rfl
@[simp] theorem coreReset_pending (k : Nat) : (coreReset k).pending = [] := rfl
@[simp] theorem coreReset_response (k : Nat) : (coreReset k).response = .noneYet := rfl
@[simp] theorem coreReset_freeDraws (k : Nat) : (coreReset k).freeDraws = 1 := rfl
@[simp] theorem coreReset_freeStream (k : Nat) : (coreReset k).freeStream = k := rfl

/-- The cores are numbered in the order of their addresses (log entry 8). -/
theorem coreBaseIndex_strictMono : StrictMono Config.coreBaseIndex :=
  strictMono_nat_of_lt_succ fun k => by simp only [Config.coreBaseIndex]; omega

/-- A window is a 256-byte page of the bus: an address lies in it exactly if its page is the core's. -/
theorem offsetOfAddress_isSome (core address : Nat) :
    (offsetOfAddress core address).isSome = true ↔ address / 256 = Config.coreBaseIndex core := by
  unfold offsetOfAddress Config.coreBase
  split <;> simp <;> omega

/-- The core that an address is routed to is one of the platform, and the address lies in its window. -/
theorem Platform.coreAt_some {p : Platform} {address k : Nat} {off : BitVec 8}
    (h : p.coreAt address = some (k, off)) : k < p.cores.length ∧ offsetOfAddress k address = some off := by
  obtain ⟨j, hj, hk⟩ := List.exists_of_findSome?_eq_some h
  obtain ⟨o, ho, heq⟩ := Option.map_eq_some_iff.1 hk
  cases heq
  exact ⟨List.mem_range.1 hj, ho⟩

/-- An address is routed to no core exactly if it lies in no window. -/
theorem Platform.coreAt_none {p : Platform} {address : Nat} :
    p.coreAt address = none ↔ ∀ k, k < p.cores.length → offsetOfAddress k address = none := by
  simp [Platform.coreAt]

end Sys2Proof.Machine
end

