-- ==== Sys2Proof/Laws/Run.lean ====
section
/-! SUPPORT. Runs of several steps, one step at a time. -/

namespace Sys2Proof.Machine

/-- A run of any machine, unfolded by one step. -/
theorem coreRun_succ (M : Host.Core) (k : Nat) (s : M.State) :
    M.run (k + 1) s =
      match M.step s with
      | .next s' => M.run k s'
      | .fault r => .fault r
      | .refused r => .refused r :=
  rfl

/-- A run of no steps stays where it is. -/
theorem run_zero (s : State) : Host.Core.run Sys2Proof.core 0 s = .next s := rfl

/-- A run whose first step answers `u` goes on from `u`. -/
theorem run_succ {k : Nat} {s u : State} (h : step s = .next u) :
    Host.Core.run Sys2Proof.core (k + 1) s = Host.Core.run Sys2Proof.core k u := by
  refine (coreRun_succ Sys2Proof.core k s).trans ?_
  rw [show Sys2Proof.core.step s = .next u from h]

/-- A run of `j` steps and then of `k` is a run of `j + k`. -/
theorem run_add (k : Nat) :
    ∀ (j : Nat) (s u : State), Host.Core.run Sys2Proof.core j s = .next u →
      Host.Core.run Sys2Proof.core (j + k) s = Host.Core.run Sys2Proof.core k u := by
  intro j
  induction j with
  | zero => intro s u h; cases h; rw [Nat.zero_add]
  | succ j ih =>
    intro s u h
    obtain ⟨v, hv⟩ : ∃ v, step s = .next v := by
      rcases step_cases s with ⟨-, hs⟩ | ⟨x, rest, i, -, -, hs⟩ | ⟨x, rest, c, -, -, hs⟩ | ⟨rest, -, hs⟩ |
        ⟨x, rest, -, hs⟩
      · exact ⟨_, hs⟩
      · obtain ⟨t, ht, -⟩ := exec_next i { s with pending := rest }
        exact ⟨t, hs.trans ht⟩
      · exact ⟨_, hs⟩
      · exact ⟨_, hs⟩
      · exact ⟨_, hs⟩
    rw [run_succ hv] at h
    rw [show j + 1 + k = (j + k) + 1 by omega, run_succ hv]
    exact ih v u h

end Sys2Proof.Machine
end

