-- ==== Sys2Proof/Laws/Sine.lean ====
section
/-! SUPPORT. Enclosures of sin n and cos n for natural n, from the addition formulas in exact integer arithmetic: what a
proof of the ROM of sine constants (spec/42_compress.md R93) computes with. -/

namespace Sys2Proof.Machine
open Complex in
/-- The exponential series at i, split into its cosine and its sine part. -/
theorem expI_sum (N : ℕ) : (∑ m ∈ Finset.range (2 * N), (I ^ m / (m.factorial : ℂ))) =
    ((∑ k ∈ Finset.range N, (-1 : ℝ) ^ k / ((2 * k).factorial : ℝ) : ℝ) : ℂ) +
    ((∑ k ∈ Finset.range N, (-1 : ℝ) ^ k / ((2 * k + 1).factorial : ℝ) : ℝ) : ℂ) * I := by
  induction N with
  | zero => simp
  | succ N ih =>
    rw [show 2 * (N + 1) = 2 * N + 1 + 1 by ring, Finset.sum_range_succ, Finset.sum_range_succ, ih,
      Finset.sum_range_succ, Finset.sum_range_succ]
    push_cast
    rw [show (I : ℂ) ^ (2 * N + 1) = (-1) ^ N * I by rw [pow_succ, pow_mul, I_sq],
      show (I : ℂ) ^ (2 * N) = (-1) ^ N by rw [pow_mul, I_sq]]
    ring

/-- Forty terms of the exponential series at i are enough for 140 bits. -/
theorem exp_I_bound :
    ‖Complex.exp Complex.I - ∑ m ∈ Finset.range (2 * 20), (Complex.I ^ m / (m.factorial : ℂ))‖ ≤ 1 / 2 ^ 140 := by
  refine (Complex.exp_bound (x := Complex.I) (by simp) (n := 40) (by norm_num)).trans ?_
  rw [Complex.norm_I, one_pow, one_mul]
  norm_num [Nat.factorial]


/-- `floor(sin(1) * 2^128)`. -/
def sinOne : Int := 286337738405724074564845076175058320434

/-- `floor(cos(1) * 2^128)`. -/
def cosOne : Int := 183855347493651442427684920285310598441

/-- `sin n` and `cos n` times 2^128, rounded at each step of the addition formulas. -/
def sinCos : Nat → Int × Int
  | 0 => (0, 2 ^ 128)
  | n + 1 =>
    let p := sinCos n
    ((p.1 * cosOne + p.2 * sinOne) / 2 ^ 128, (p.2 * cosOne - p.1 * sinOne) / 2 ^ 128)

/-- The enclosure of sin 1. -/
theorem sinOne_bound : |Real.sin 1 * 2 ^ 128 - (sinOne : ℝ)| ≤ 1 := by
  have h := exp_I_bound
  rw [expI_sum, show Complex.I = ((1 : ℝ) : ℂ) * Complex.I by simp, Complex.exp_mul_I, ← Complex.ofReal_cos,
    ← Complex.ofReal_sin] at h
  have h2 := (Complex.abs_im_le_norm _).trans h
  simp only [Complex.ofReal_one, one_mul, Complex.sub_im, Complex.add_im, Complex.ofReal_im, Complex.mul_im,
    Complex.I_re, Complex.I_im, Complex.ofReal_re, mul_zero, mul_one, zero_add, add_zero] at h2
  norm_num [Finset.sum_range_succ, Nat.factorial] at h2
  rw [abs_le] at h2 ⊢
  norm_num [sinOne]
  constructor <;> linarith [h2.1, h2.2]

/-- The enclosure of cos 1. -/
theorem cosOne_bound : |Real.cos 1 * 2 ^ 128 - (cosOne : ℝ)| ≤ 1 := by
  have h := exp_I_bound
  rw [expI_sum, show Complex.I = ((1 : ℝ) : ℂ) * Complex.I by simp, Complex.exp_mul_I, ← Complex.ofReal_cos,
    ← Complex.ofReal_sin] at h
  have h2 := (Complex.abs_re_le_norm _).trans h
  simp only [Complex.ofReal_one, one_mul, Complex.sub_re, Complex.add_re, Complex.ofReal_im, Complex.mul_re,
    Complex.I_re, Complex.I_im, Complex.ofReal_re, mul_zero, mul_one, add_zero, sub_zero] at h2
  norm_num [Finset.sum_range_succ, Nat.factorial] at h2
  rw [abs_le] at h2 ⊢
  norm_num [cosOne]
  constructor <;> linarith [h2.1, h2.2]

/-- What rounding down costs. -/
theorem ediv_bound (a : Int) : |((a / 2 ^ 128 : Int) : ℝ) - (a : ℝ) / 2 ^ 128| ≤ 1 := by
  have h1 : (a / 2 ^ 128) * 2 ^ 128 ≤ a := Int.ediv_mul_le a (by norm_num)
  have h2 : a < (a / 2 ^ 128 + 1) * 2 ^ 128 := Int.lt_ediv_add_one_mul_self a (by norm_num)
  have h1' : (((a / 2 ^ 128 : Int)) : ℝ) * 2 ^ 128 ≤ a := by exact_mod_cast h1
  have h2' : (a : ℝ) < (((a / 2 ^ 128 : Int) : ℝ) + 1) * 2 ^ 128 := by exact_mod_cast h2
  rw [abs_le]
  constructor
  · rw [neg_le_sub_iff_le_add, div_le_iff₀ (by norm_num)]; linarith
  · rw [sub_le_iff_le_add, ← sub_le_iff_le_add', le_div_iff₀ (by norm_num)]; nlinarith

/-- What one product of scaled factors costs. -/
theorem mul_bound {x y a c e : ℝ} (hx : |x| ≤ 1) (hc : |c| ≤ 2 ^ 128) (ha : |x * 2 ^ 128 - a| ≤ e)
    (hy : |y * 2 ^ 128 - c| ≤ 1) :
    |x * y * 2 ^ 128 - a * c / 2 ^ 128| ≤ e + 1 := by
  have : x * y * 2 ^ 128 - a * c / 2 ^ 128 = (x * 2 ^ 128 - a) * (c / 2 ^ 128) + x * (y * 2 ^ 128 - c) := by ring
  rw [this]
  refine (abs_add_le _ _).trans (add_le_add ?_ ?_)
  · rw [abs_mul]
    have h1 : |c / 2 ^ 128| ≤ 1 := by
      rw [abs_div, abs_of_pos (show (0:ℝ) < 2 ^ 128 by norm_num)]
      exact (div_le_one (by norm_num)).2 hc
    calc _ ≤ e * 1 := mul_le_mul ha h1 (abs_nonneg _) ((abs_nonneg _).trans ha)
      _ = e := mul_one e
  · rw [abs_mul]
    calc _ ≤ (1 : ℝ) * 1 := mul_le_mul hx hy (abs_nonneg _) (by norm_num)
      _ = 1 := by norm_num

/-- The enclosures of sin n and cos n. -/
theorem sinCos_bound (n : Nat) :
    |Real.sin n * 2 ^ 128 - ((sinCos n).1 : ℝ)| ≤ 3 * (2 ^ n - 1) ∧
      |Real.cos n * 2 ^ 128 - ((sinCos n).2 : ℝ)| ≤ 3 * (2 ^ n - 1) := by
  induction n with
  | zero => norm_num [sinCos]
  | succ n ih =>
    obtain ⟨ihs, ihc⟩ := ih
    have cs : |(sinOne : ℝ)| ≤ 2 ^ 128 := by norm_num [sinOne]
    have cc : |(cosOne : ℝ)| ≤ 2 ^ 128 := by norm_num [cosOne]
    have p1 := mul_bound (Real.abs_sin_le_one n) cc ihs cosOne_bound
    have p2 := mul_bound (Real.abs_cos_le_one n) cs ihc sinOne_bound
    have p3 := mul_bound (Real.abs_cos_le_one n) cc ihc cosOne_bound
    have p4 := mul_bound (Real.abs_sin_le_one n) cs ihs sinOne_bound
    have d1 := ediv_bound ((sinCos n).1 * cosOne + (sinCos n).2 * sinOne)
    have d2 := ediv_bound ((sinCos n).2 * cosOne - (sinCos n).1 * sinOne)
    rw [abs_le] at p1 p2 p3 p4 d1 d2
    push_cast at d1 d2
    push_cast
    rw [Real.sin_add, Real.cos_add, abs_le, abs_le]
    simp only [sinCos]
    rw [add_div] at d1
    rw [sub_div] at d2
    rw [pow_succ]
    push_cast
    refine ⟨⟨?_, ?_⟩, ⟨?_, ?_⟩⟩ <;>
      linarith [p1.1, p1.2, p2.1, p2.2, p3.1, p3.2, p4.1, p4.2, d1.1, d1.2, d2.1, d2.2]

end Sys2Proof.Machine
end

