-- ==== Sys2Proof/Tests/Slice0.lean ====
section
/-! SUPPORT. The model's own tests: expected values are those of spec/95_test_vectors.md and of the rules named. The
second half shows, for every obligation with hypotheses, concrete data that meet them. -/

namespace Sys2Proof.Tests

set_option Elab.async false

open Sys2Proof.Machine

/-! ## Small states -/

/-- An OPEN state with `n` bytes 'a' fed in no full block: what UPDATEs of 'a' leave after reset (R33). -/
def openState (n : Fin 64) : State where
  H := iv
  Buf := Vector.replicate 64 0x61
  bufLen := n
  bitLen := BitVec.ofNat 64 (8 * n.val)
  finalized := false
  lenOvf := false
  ERR := .none
  DATA := 0x00636261
  pending := []
  response := .noneYet
  freeDraws := 1
  freeStream := 0

/-- The DONE state after the empty message, with another DATA. -/
def doneState : State :=
  { openState 0 with
    H := #v[0xd98c1dd4, 0x04b2008f, 0x980980e9, 0x7e42f8ec]
    finalized := true
    DATA := 0x12345678 }

/-- `s` with one host input to come. -/
def before (s : State) (input : HostInput) : State := { s with pending := [input] }

/-- A field of the state an outcome gives. -/
def fieldOf {α : Type} (f : State → α) : Host.Outcome State Fault Refusal → Option α
  | .next t => some (f t)
  | .fault _ => none
  | .refused _ => none

/-! ## Ill-formed terms are refused -/

theorem test_wellFormed_update_five : wellFormed (.update 5) = false := by decide
theorem test_wellFormed_update_seven : wellFormed (.update 7) = false := by decide
theorem test_wellFormed_wcmd_init_word : wellFormed (.wcmd 0x00000001) = false := by decide
theorem test_wellFormed_wcmd_update_word : wellFormed (.wcmd 0x00000042) = false := by decide

/-! ## Decoding: each constructor from a word written out from R55 and R57 -/

theorem test_decode_init : decodeTableWord 32 0b00000000000000000000000000000001 = some .init := by decide
theorem test_decode_update : decodeTableWord 32 0b00000000000000000000000001000010 = some (.update 4) := by decide
theorem test_decode_finalize : decodeTableWord 32 0b00000000000000000000000000000011 = some .finalize := by decide
theorem test_decode_clearErr : decodeTableWord 32 0b00000000000000000000000000000100 = some .clearErr := by decide
theorem test_decode_wcmd : decodeTableWord 16 0b100000000 = some (.wcmd 0) := by decide
theorem test_decode_wdata : decodeTableWord 16 0b100000100 = some (.wdata 0) := by decide
theorem test_decode_rdata : decodeTableWord 16 0b000000100 = some .rdata := by decide
theorem test_decode_rstatus : decodeTableWord 16 0b000001000 = some .rstatus := by decide
theorem test_decode_rlenlo : decodeTableWord 16 0b000001100 = some .rlenlo := by decide
theorem test_decode_rlenhi : decodeTableWord 16 0b000010000 = some .rlenhi := by decide
theorem test_decode_rdigest : decodeTableWord 16 0b000100100 = some (.rdigest 1) := by decide
theorem test_decode_rhex : decodeTableWord 16 0b001011100 = some (.rhex 7) := by decide
/-- R60: NBYTES 5 is no UPDATE; the word is a rejected WCMD. -/
theorem test_decode_update_five : decodeTableWord 32 0x00000052 = some (.wcmd 0x52) := by decide
/-- V60-C: the malformed accesses. -/
theorem test_decode_bus_errors :
    ([.read 0x00 4, .write 0x08 4 1, .write 0x0c 4 1, .write 0x10 4 1, .write 0x20 4 1, .write 0x40 4 1, .read 0x02 4,
      .write 0x06 4 1, .read 0x14 4, .read 0x1c 4, .read 0x30 4, .read 0x3c 4, .read 0x60 4, .read 0xfc 4,
      .read 0x20 1, .read 0x20 2] : List Transaction).all (fun t => (decode t).toOption == none) = true := by decide

/-! ## One step of each instruction -/

/-- The first step after reset runs the placed instruction. -/
theorem test_withFetchWord_update :
    step (State.reset.withFetchWord 32 0x32) = exec (.update 3) State.reset := rfl
/-- R65: INIT keeps DATA. -/
theorem test_init :
    fieldOf (fun t => (t.H, t.bufLen, t.finalized, t.DATA)) (exec .init doneState) =
      some (iv, 0, false, 0x12345678) := by decide
/-- V41: PUT 3, 0x00636261. -/
theorem test_update_three :
    fieldOf (fun t => (statusWord t, t.bitLen, t.Buf[0], t.Buf[1], t.Buf[2], t.Buf[3])) (exec (.update 3) (openState 0)) =
      some (0x00000300, 0x18, 0x61, 0x62, 0x63, 0x61) := by decide +kernel
/-- V41-A, first row: the length wraps. -/
theorem test_update_wraps :
    fieldOf (fun t => (t.bitLen, t.lenOvf, t.bufLen, statusWord t))
      (exec (.update 2) { openState 63 with bitLen := 0xfffffffffffffff8 }) =
      some (0x8, true, 1, 0x00000102) := by decide +kernel
/-- V43-A, n = 55 and V43-B, n = 56: the last one-block and the first two-block finalize. -/
theorem test_finalize_55 :
    fieldOf (fun t => digestByte t.H 0) (exec .finalize (openState 55)) = some 0xef := by decide +kernel
theorem test_finalize_56 :
    fieldOf (fun t => digestByte t.H 15) (exec .finalize (openState 56)) = some 0x18 := by decide +kernel
/-- V40: STATUS 0x00000005, CLRERR. -/
theorem test_clearErr :
    fieldOf statusWord (exec .clearErr { doneState with ERR := .invalidState }) = some 0x00000001 := by decide
/-- V60-A: rows 0x00000052 and 0x00000104 in DONE. -/
theorem test_wcmd_nbytes_five : fieldOf statusWord (exec (.wcmd 0x52) doneState) = some 0x00000009 := by decide
theorem test_wcmd_clearErr_bit : fieldOf statusWord (exec (.wcmd 0x104) doneState) = some 0x0000000d := by decide
theorem test_wdata :
    fieldOf (fun t => (t.DATA, t.bufLen)) (exec (.wdata 0x20786f66) (openState 3)) = some (0x20786f66, 3) := by decide
theorem test_rdata : fieldOf State.response (exec .rdata (openState 3)) = some (.readData 0x00636261) := by decide
theorem test_rstatus :
    fieldOf State.response (exec .rstatus { openState 43 with ERR := .illegalCommand, lenOvf := true }) =
      some (.readData 0x00002b0e) := by decide
theorem test_rlenlo :
    fieldOf State.response (exec .rlenlo { openState 0 with bitLen := 0x0123456789abcdef }) =
      some (.readData 0x89abcdef) := by decide
theorem test_rlenhi :
    fieldOf State.response (exec .rlenhi { openState 0 with bitLen := 0x0123456789abcdef }) =
      some (.readData 0x01234567) := by decide
/-- V44 and R140: the first digest read finalizes the empty message. -/
theorem test_rdigest :
    fieldOf (fun t => (t.response, statusWord t)) (exec (.rdigest 0) (openState 0)) =
      some (.readData 0xd98c1dd4, 0x00000001) := by decide +kernel
theorem test_rhex :
    fieldOf (fun t => (t.response, statusWord t)) (exec (.rhex 0) (openState 0)) =
      some (.readData 0x64313464, 0x00000001) := by decide +kernel
/-- V60-C: in OPEN a one-byte read of 0x20 is a bus error and finalizes nothing. -/
theorem test_bus_error :
    fieldOf (fun t => (t.response, statusWord t)) (step (before (openState 3) (.transaction (.read 0x20 1)))) =
      some (.busError, 0x00000300) := by decide

/-! ## The compression engine (V42) -/

/-- V42-A, last row: the truth tables of the four mixing functions. -/
theorem test_mixing :
    (mixF 0xffff0000 0xff00ff00 0xf0f0f0f0, mixG 0xffff0000 0xff00ff00 0xf0f0f0f0,
      mixH 0xffff0000 0xff00ff00 0xf0f0f0f0, mixI 0xffff0000 0xff00ff00 0xf0f0f0f0) =
      (0xff00f0f0, 0xfff00f00, 0xf00f0ff0, 0x00fff00f) := by decide
/-- V42-B. -/
theorem test_rotation :
    (rotl32 0x12345678 7, rotl32 0x12345678 23, rotl32 0x80000000 1) = (0x1a2b3c09, 0x3c091a2b, 0x00000001) := by
  decide
/-- V42-D, rows 2 and 3. -/
theorem test_compress_ones :
    compress iv (Vector.replicate 64 0xff) = #v[0x561987b4, 0x493e9151, 0xbdc6554b, 0x015c40df] := by decide +kernel
theorem test_compress_zero_start :
    compress #v[0, 0, 0, 0] (Vector.replicate 64 0) = #v[0xf7cd1c97, 0xa5483681, 0x2b68d832, 0xf90ca639] := by
  decide +kernel
/-- L1-A, "abc", and V43-A, n = 64, on the whole message. -/
theorem test_digest_abc :
    digestWords [0x61, 0x62, 0x63] = #v[0x98500190, 0xb04fd23c, 0x7d3f96d6, 0x727fe128] := by decide +kernel
theorem test_digest_64 :
    digestWords (List.replicate 64 0x61) = #v[0xd4424801, 0x4971b580, 0x63034a5a, 0x67733f79] := by decide +kernel

/-! ## Witnesses: data that meet the hypotheses of the obligations -/

theorem witness_DecodeOfEncode :
    wellFormed (.update 4) = true ∧ wellFormed (.wcmd 0) = true ∧ wellFormed (.wcmd 0xffffffff) = true ∧
      wellFormed (.wdata 0xffffffff) = true ∧ wellFormed (.rdigest 3) = true ∧ wellFormed (.rhex 7) = true := by decide

theorem witness_EncodeOfDecode :
    decode (.read 0x5C 4) = .ok (.rhex 7) ∧ decode (.write 0x00 4 0x42) = .ok (.update 4) ∧
      decode (.write 0x00 4 0x52) = .ok (.wcmd 0x52) := ⟨rfl, rfl, rfl⟩

theorem witness_AcceptedDescriptorsDecode :
    decodeCommand 0x42 = .ok (.update 4) ∧ decodeCommand 0x52 = .error .invalidInputType ∧
      decodeCommand 0x05 = .error .illegalCommand := ⟨rfl, rfl, rfl⟩

theorem witness_EveryOtherCommandWordIsRejected :
    (0x42 : Word) ∈ [(0x01 : Word), 0x02, 0x12, 0x22, 0x32, 0x42, 0x03, 0x04] ∧
      ((0x52 : Word) ∉ [(0x01 : Word), 0x02, 0x12, 0x22, 0x32, 0x42, 0x03, 0x04] ∧ (0x52 : Word).toNat % 16 = 2) ∧
      ((0x80000002 : Word) ∉ [(0x01 : Word), 0x02, 0x12, 0x22, 0x32, 0x42, 0x03, 0x04] ∧
        (0x80000002 : Word).toNat % 16 = 2) ∧
      ((0x104 : Word) ∉ [(0x01 : Word), 0x02, 0x12, 0x22, 0x32, 0x42, 0x03, 0x04] ∧ (0x104 : Word).toNat % 16 = 4) ∧
      (0x00 : Word) ∉ [(0x01 : Word), 0x02, 0x12, 0x22, 0x32, 0x42, 0x03, 0x04] ∧
      (0xffffffff : Word) ∉ [(0x01 : Word), 0x02, 0x12, 0x22, 0x32, 0x42, 0x03, 0x04] := by decide

theorem witness_StepRunsDecodedInstruction :
    (before (openState 3) (.transaction (.write 0x00 4 0x32))).pending = .transaction (.write 0x00 4 0x32) :: [] ∧
      decode (.write 0x00 4 0x32) = .ok (.update 3) := ⟨rfl, rfl⟩

/-- Both clauses: a wrong size and a wrong descriptor; the first and the last accepted descriptor. -/
theorem witness_MalformedAccessIsBusError :
    ∃ descriptors : List Nat, descriptors =
      [0x100, 0x104, 0x004, 0x008, 0x00C, 0x010, 0x020, 0x024, 0x028, 0x02C,
        0x040, 0x044, 0x048, 0x04C, 0x050, 0x054, 0x058, 0x05C] ∧
      (before doneState (.transaction (.read 0x20 1))).pending = .transaction (.read 0x20 1) :: [] ∧
      (Transaction.read 0x20 1).size ≠ 4 ∧ (Transaction.read 0x00 4).descriptor.toNat ∉ descriptors ∧
      (Transaction.write 0x08 4 0).descriptor.toNat ∉ descriptors ∧
      (Transaction.read 0x60 4).descriptor.toNat ∉ descriptors ∧
      ((Transaction.write 0x00 4 0).size = 4 ∧ (Transaction.write 0x00 4 0).descriptor.toNat ∈ descriptors) ∧
      ((Transaction.read 0x5C 4).size = 4 ∧ (Transaction.read 0x5C 4).descriptor.toNat ∈ descriptors) :=
  ⟨_, rfl, rfl, by decide⟩

theorem witness_IdleStepKeepsState : doneState.pending = [] := rfl

theorem witness_ResetEventGivesResetValues :
    (before { doneState with ERR := .illegalCommand } .reset).pending = .reset :: [] := rfl

theorem witness_ResetDuringTransactionGivesResetValues :
    (before (openState 63) (.resetDuring (.write 0x00 4 0x42))).pending =
      .resetDuring (.write 0x00 4 0x42) :: [] := rfl

theorem witness_InitMakesNewEngine :
    (0x11 : Word).toNat % 16 = 1 ∧ (0x11 : Word).toNat / 16 ≠ 0 ∧
      (0x80000001 : Word).toNat % 16 = 1 ∧ (0x80000001 : Word).toNat / 16 ≠ 0 := by decide

theorem witness_ClearErrClearsOnlyErr :
    (0x14 : Word).toNat % 16 = 4 ∧ (0x14 : Word).toNat / 16 ≠ 0 ∧
      (0x80000004 : Word).toNat % 16 = 4 ∧ (0x80000004 : Word).toNat / 16 ≠ 0 := by decide

theorem witness_DataWriteThenRead :
    ∃ t u, exec (.wdata 0xffffffff) (openState 3) = .next t ∧ exec .rdata t = .next u := ⟨_, _, rfl, rfl⟩

/-- An accepted UPDATE that does not fill the buffer, one that fills it exactly, one that goes past it; NBYTES 5 and 7;
UPDATE 4 in DONE. -/
theorem witness_UpdateFeedsDataLanes :
    (((4 : Fin 8).val ≤ 4 ∧ (openState 59).finalized = false ∧ (openState 59).bufLen.val + 4 < 64) ∧
      ((openState 60).finalized = false ∧ (openState 60).bufLen.val + 4 = 64) ∧
      ((openState 63).finalized = false ∧ 64 < (openState 63).bufLen.val + 4)) ∧
    (4 < (5 : Fin 8).val ∧ 4 < (7 : Fin 8).val) ∧ ((4 : Fin 8).val ≤ 4 ∧ doneState.finalized = true) := by decide

theorem witness_UpdateZeroChangesNothing :
    (openState 63).finalized = false ∧ doneState.finalized = true := ⟨rfl, rfl⟩

theorem witness_UpdateInDoneKeepsTheDigest :
    (∀ n ∈ [(0 : Fin 8), 4], n.val ≤ 4) ∧ doneState.finalized = true := by decide

theorem witness_RotationLosesNoBit : (1 ≤ 1 ∧ 1 ≤ 31) ∧ (1 ≤ 31 ∧ 31 ≤ 31) := by decide

theorem witness_FinalizePadsAndCompresses :
    ((openState 55).finalized = false ∧ (openState 55).bufLen.val ≤ 55) ∧
      ((openState 56).finalized = false ∧ 56 ≤ (openState 56).bufLen.val) ∧
      ((openState 63).finalized = false ∧ 56 ≤ (openState 63).bufLen.val) := by decide

theorem witness_FinalizeIsIdempotent :
    doneState.finalized = true ∧ (0x13 : Word).toNat % 16 = 3 ∧ (0x13 : Word).toNat / 16 ≠ 0 ∧
      (0x80000003 : Word).toNat % 16 = 3 ∧ (0x80000003 : Word).toNat / 16 ≠ 0 := by decide

theorem witness_PaddedBlockCount :
    (List.replicate 55 (0x61 : Byte)).length % 64 ≤ 55 ∧ 56 ≤ (List.replicate 56 (0x61 : Byte)).length % 64 := by decide

theorem witness_DigestReadReturnsWord : doneState.finalized = true ∧ (openState 56).finalized = false := ⟨rfl, rfl⟩

theorem witness_HexReadReturnsCharacters : doneState.finalized = true := rfl

theorem witness_EmptyMessageDigest :
    (∃ t, exec .init doneState = .next t) ∧
      (before doneState .reset).pending = .reset :: [] ∧ ∃ t, step (before doneState .reset) = .next t :=
  ⟨⟨_, rfl⟩, rfl, _, rfl⟩

theorem witness_RejectionWritesOnlyErr :
    (0x52 : Word) ∉ [(0x01 : Word), 0x02, 0x12, 0x22, 0x32, 0x42, 0x03, 0x04] ∧
      (0x11 : Word) ∉ [(0x01 : Word), 0x02, 0x12, 0x22, 0x32, 0x42, 0x03, 0x04] ∧
      (4 : Fin 8).val ≤ 4 ∧ doneState.finalized = true := by decide

theorem witness_CommandWriteRunsTheCommand : ∀ n ∈ [(0 : Fin 8), 4], n.val ≤ 4 := by decide

theorem witness_ErrorsAreReportedInOrder :
    ((before doneState (.transaction (.read 0x02 4))).pending = .transaction (.read 0x02 4) :: [] ∧
      decode (.read 0x02 4) = .error .misaligned) ∧
    ((before doneState (.transaction (.write 0x00 4 0x52))).pending = .transaction (.write 0x00 4 0x52) :: [] ∧
      (0x52 : Word) ∉ [(0x01 : Word), 0x02, 0x12, 0x22, 0x32, 0x42, 0x03, 0x04]) ∧
    ((before doneState (.transaction (.write 0x00 4 0x42))).pending = .transaction (.write 0x00 4 0x42) :: [] ∧
      (0x42 : Word) ∈ [(0x02 : Word), 0x12, 0x22, 0x32, 0x42] ∧ doneState.finalized = true) :=
  ⟨⟨rfl, rfl⟩, ⟨rfl, by decide⟩, ⟨rfl, by decide, rfl⟩⟩

/-- One input for each clause: a malformed word, an UPDATE in DONE, CLEAR_ERR, and a data write. -/
theorem witness_ErrKeepsTheLatestRejection :
    (∀ input ∈ [HostInput.transaction (.write 0x00 4 0x52), .transaction (.write 0x00 4 0x42),
        .transaction (.write 0x00 4 0x04), .transaction (.write 0x04 4 0x42)],
      (before doneState input).pending = input :: [] ∧ ∃ t, step (before doneState input) = .next t) ∧
    (0x52 : Word) ∉ [(0x01 : Word), 0x02, 0x12, 0x22, 0x32, 0x42, 0x03, 0x04] ∧
    ((0x42 : Word) ∈ [(0x02 : Word), 0x12, 0x22, 0x32, 0x42] ∧ doneState.finalized = true) ∧
    clearsError (.transaction (.write 0x00 4 0x04)) = true ∧
    (clearsError (.transaction (.write 0x04 4 0x42)) = false ∧
      ∀ cmd : Word, HostInput.transaction (.write 0x04 4 0x42) ≠ .transaction (.write 0x00 4 cmd)) := by
  refine ⟨?_, by decide, by decide, by decide, by decide, ?_⟩
  · intro input h
    simp only [List.mem_cons, List.not_mem_nil, or_false] at h
    rcases h with rfl | rfl | rfl | rfl <;> exact ⟨rfl, _, rfl⟩
  · intro cmd h
    simp at h

theorem witness_SafeRunRejectedNothing :
    let s := before (openState 3) (.transaction (.write 0x04 4 0x42))
    safeRun 1 s = true ∧ 1 ≤ s.pending.length ∧ (∀ input ∈ s.pending.take 1, clearsError input = false) ∧
      ∃ t, Host.Core.run Sys2Proof.core 1 s = .next t := by
  refine ⟨by decide, by decide, by decide, _, rfl⟩

/-- An input for each clause: INIT and reset; an UPDATE that fills the buffer exactly and one that goes past it; a FINALIZE
from 55 and digest reads from 56 and 63 buffered bytes; an UPDATE one byte short, an UPDATE and a FINALIZE in DONE; none. -/
theorem witness_OnlyCompressionWritesH :
    (∀ (s : State) (input : HostInput), (before s input).pending = input :: [] ∧
      ∃ t, step (before s input) = .next t) ∧
    (startsInstance (.transaction (encode .init)) = true ∧ startsInstance .reset = true) ∧
    (fillsBuffer (openState 60) (.transaction (encode (.update 4))) ∧
      fillsBuffer (openState 63) (.transaction (encode (.update 4)))) ∧
    ((finalizes (openState 55) (.transaction (encode .finalize)) ∧ (openState 55).bufLen.val ≤ 55) ∧
      (finalizes (openState 56) (.transaction (encode (.rdigest 3))) ∧ ¬ (openState 56).bufLen.val ≤ 55) ∧
      (finalizes (openState 63) (.transaction (encode (.rhex 7))) ∧ ¬ (openState 63).bufLen.val ≤ 55)) ∧
    (∀ input ∈ [HostInput.transaction (encode (.update 4)), .transaction (encode .finalize)],
      startsInstance input = false ∧ ¬ fillsBuffer doneState input ∧ ¬ finalizes doneState input) ∧
    (doneState.pending = [] ∧ step doneState = .next doneState) := by
  refine ⟨fun s input => ⟨rfl, ?_⟩, by decide, ⟨⟨rfl, 4, by decide⟩, ⟨rfl, 4, by decide⟩⟩,
    ⟨⟨⟨rfl, .inl rfl⟩, by decide⟩, ⟨⟨rfl, .inr (.inl ⟨3, rfl⟩)⟩, by decide⟩, ⟨⟨rfl, .inr (.inr ⟨7, rfl⟩)⟩, by decide⟩⟩,
    ?_, rfl, rfl⟩
  · rcases step_cases (before s input) with ⟨-, h⟩ | ⟨x, rest, i, -, -, h⟩ | ⟨x, rest, c, -, -, h⟩ | ⟨rest, -, h⟩ |
      ⟨x, rest, -, h⟩
    · exact ⟨_, h⟩
    · obtain ⟨t, ht, -⟩ := exec_next i { before s input with pending := rest }
      exact ⟨t, h.trans ht⟩
    · exact ⟨_, h⟩
    · exact ⟨_, h⟩
    · exact ⟨_, h⟩
  · intro input h
    simp only [List.mem_cons, List.not_mem_nil, or_false] at h
    rcases h with rfl | rfl <;>
      exact ⟨by decide, fun hb => absurd hb.1 (by decide), fun hb => absurd hb.1 (by decide)⟩

theorem witness_OnlyTheseInputsChangeThePhase :
    (∃ t, step (before (openState 3) (.transaction (encode (.rhex 7)))) = .next t ∧ (openState 3).finalized = false ∧
      t.finalized = true) ∧
    (∃ t, step (before doneState (.transaction (encode .init))) = .next t ∧ doneState.finalized = true ∧
      t.finalized = false) :=
  ⟨⟨_, rfl, rfl, rfl⟩, ⟨_, rfl, rfl, rfl⟩⟩

theorem witness_OnlyUpdateAdvancesTheLength :
    ∃ t, step (before (openState 3) (.transaction (encode (.update 4)))) = .next t := ⟨_, rfl⟩

theorem witness_OnlyHostWritesChangeData :
    (∃ t, step (before (openState 3) (.transaction (.write 0x04 4 7))) = .next t) ∧
      ∃ t, step (before (openState 3) .reset) = .next t := ⟨⟨_, rfl⟩, ⟨_, rfl⟩⟩

theorem witness_DoneInstanceIsFrozen :
    let s := before doneState (.transaction (.write 0x00 4 0x42))
    s.finalized = true ∧ (∀ input rest, s.pending = input :: rest → startsInstance input = false) ∧
      ∃ t, step s = .next t := by
  refine ⟨rfl, ?_, _, rfl⟩
  intro input rest h
  cases h
  decide

theorem witness_DigestReadsRepeat :
    let s := before doneState (.transaction (.read 0x5C 4))
    s.finalized = true ∧ (∀ input ∈ s.pending.take 2, startsInstance input = false) ∧
      ∃ t, Host.Core.run Sys2Proof.core 2 s = .next t := by
  refine ⟨rfl, by decide, _, rfl⟩

theorem witness_DoneHasAnEmptyBuffer :
    let s := before (openState 56) (.transaction (.read 0x20 4))
    (s.finalized = true → s.bufLen = 0) ∧ ∃ t, step s = .next t ∧ t.finalized = true := by
  refine ⟨by decide, _, rfl, rfl⟩

/-- The empty message in OPEN. -/
theorem representsOpen : Represents (openState 0) [] := represents_empty rfl rfl rfl rfl rfl

/-- The empty message in DONE. -/
theorem representsDone : Represents doneState [] := by
  refine ⟨rfl, by decide, fun h => absurd h (by decide), fun _ => ⟨rfl, ?_⟩⟩
  decide +kernel

/-- Three bytes in OPEN, none of them a whole block. -/
theorem representsThree : Represents (openState 3) [0x61, 0x61, 0x61] := by
  refine ⟨rfl, by decide, fun _ => ⟨rfl, rfl, ?_⟩, fun h => absurd h (by decide)⟩
  intro j h
  have h3 : j < 3 := h
  have : j = 0 ∨ j = 1 ∨ j = 2 := by omega
  rcases this with rfl | rfl | rfl <;> rfl

theorem witness_EveryStepKeepsTheMessage :
    Represents (before (openState 3) (.transaction (encode (.update 4)))) [0x61, 0x61, 0x61] ∧
      ∃ t, step (before (openState 3) (.transaction (encode (.update 4)))) = .next t :=
  ⟨representsThree.of_eq rfl rfl rfl rfl rfl rfl, _, rfl⟩

theorem witness_DigestReadsGiveTheDigestOfTheMessage :
    Represents (openState 3) [0x61, 0x61, 0x61] ∧ Represents doneState [] := ⟨representsThree, representsDone⟩

theorem witness_ChunksFeedTheirConcatenation :
    let chunks : List (List Byte) := [[0x61], [], [0x62, 0x63, 0x64, 0x65]]
    let s := { openState 3 with pending := inputsOf (chunks.flatMap putChunk) ++ [.reset] }
    Represents s [0x61, 0x61, 0x61] ∧ s.finalized = false ∧ (∀ c ∈ chunks, c.length ≤ 4) ∧
      s.pending = inputsOf (chunks.flatMap putChunk) ++ [.reset] :=
  ⟨representsThree.of_eq rfl rfl rfl rfl rfl rfl, rfl, by decide, rfl⟩

theorem witness_HashBytesFeedsTheBytes :
    let s := { openState 3 with pending := inputsOf (hashBytes [1, 2, 3, 4, 5]) ++ [.reset] }
    Represents s [0x61, 0x61, 0x61] ∧ s.finalized = false ∧
      s.pending = inputsOf (hashBytes [1, 2, 3, 4, 5]) ++ [.reset] :=
  ⟨representsThree.of_eq rfl rfl rfl rfl rfl rfl, rfl, rfl⟩

theorem witness_SeedThenReadGivesTheDigest :
    ({ doneState with pending := inputsOf (seed [1, 2, 3, 4, 5]) ++ [.reset] } : State).pending =
      inputsOf (seed [1, 2, 3, 4, 5]) ++ [.reset] := rfl

/-- Two states that differ in every byte of Buf from 3 on. -/
theorem witness_UnspecifiedBytesAreNeverObserved :
    let s := before (openState 3) (.transaction (encode .finalize))
    let t := { s with Buf := Vector.ofFn fun j => if j.val < 3 then 0x61 else 0xff }
    Indistinguishable s t ∧ s ≠ t ∧ (∃ s', step s = .next s') ∧ (∃ t', step t = .next t') ∧
      ∀ x rest, s.pending ≠ .resetDuring x :: rest := by
  refine ⟨⟨rfl, ?_, rfl, rfl, rfl, rfl, rfl, rfl, rfl, rfl⟩, by decide, ⟨_, rfl⟩, ⟨_, rfl⟩, ?_⟩
  · intro j h
    have h3 : j < 3 := h
    have : j = 0 ∨ j = 1 ∨ j = 2 := by omega
    rcases this with rfl | rfl | rfl <;> rfl
  · intro x rest h
    cases h

theorem witness_WindowIsAtCoreBase :
    offsetOfAddress 0 (Config.coreBase 0 + 0) = some 0x00 ∧ offsetOfAddress 3 (Config.coreBase 3 + 255) = some 0xFF := by
  simp [offsetOfAddress]

/-- An access at the last offset of the second core's window, and, of a platform with one core, one just past its
window. -/
theorem witness_AccessReachesItsOwnCore :
    (0 ≠ 1) ∧ (offsetOfAddress 1 (Config.coreBase 1 + 255) = some 0xFF) ∧
    (({ cores := [doneState, openState 3] } : Platform).cores[1]? = some (openState 3) ∧
      (BusAccess.read (Config.coreBase 1 + 255) 4).address = Config.coreBase 1 + (0xFF : BitVec 8).toNat) ∧
    (∀ k, k < ({ cores := [doneState] } : Platform).cores.length →
      offsetOfAddress k (BusAccess.read (Config.coreBase 0 + 256) 4).address = none) := by
  refine ⟨by decide, by simp [offsetOfAddress], ⟨rfl, rfl⟩, ?_⟩
  intro k hk
  have hk : k = 0 := by simpa using hk
  subst hk
  simp [offsetOfAddress, BusAccess.address]

theorem witness_CoresShareNoState :
    ({ cores := [doneState, openState 3] } : Platform).cores[1]? = some (openState 3) := rfl

end Sys2Proof.Tests
end

section
/-! SUPPORT. The rotation `rotl32` of R9, bit by bit, and the proof that it loses no bit (R95). -/

namespace Sys2Proof.Machine

/-- The two shifts of R9 are the library's rotation; at 32 and above the library reduces the amount and R9 does not. -/
theorem rotl32_eq_rotateLeft (x : Word) {s : Nat} (hs : s < 32) : rotl32 x s = x.rotateLeft s := by
  rw [BitVec.rotateLeft_def, Nat.mod_eq_of_lt hs, rotl32]

/-- Bit `i` lands at place `i + s`, round the word's end. -/
theorem getLsbD_rotl32_add_mod (x : Word) {s i : Nat} (hs : s < 32) (hi : i < 32) :
    (rotl32 x s).getLsbD ((i + s) % 32) = x.getLsbD i := by
  rw [rotl32_eq_rotateLeft x hs, BitVec.getLsbD_rotateLeft, Nat.mod_eq_of_lt hs]
  by_cases hwrap : i + s < 32
  · have hplace : (i + s) % 32 = i + s := Nat.mod_eq_of_lt hwrap
    simp [hplace, hwrap]
  · have hplace : (i + s) % 32 = i + s - 32 := by omega
    have hlow : i + s - 32 < s := by omega
    have hback : 32 - s + (i + s - 32) = i := by omega
    simp [hplace, hlow, hback]

/-- Going on by the rest of the word brings every bit back: place `i + s` plus `32 - s` is `i`. -/
theorem rotl32_rotl32_sub (x : Word) {s : Nat} (hpos : 0 < s) (hs : s < 32) :
    rotl32 (rotl32 x s) (32 - s) = x := by
  refine BitVec.eq_of_getLsbD_eq fun i hi => ?_
  have hround : ((i + s) % 32 + (32 - s)) % 32 = i := by omega
  calc (rotl32 (rotl32 x s) (32 - s)).getLsbD i
      = (rotl32 (rotl32 x s) (32 - s)).getLsbD (((i + s) % 32 + (32 - s)) % 32) := by rw [hround]
    _ = (rotl32 x s).getLsbD ((i + s) % 32) :=
        getLsbD_rotl32_add_mod _ (by omega) (Nat.mod_lt _ (by decide))
    _ = x.getLsbD i := getLsbD_rotl32_add_mod x hs hi

/-- Settles O25: the place of each bit, and the inverse rotation read off it. -/
theorem rotationLosesNoBit : Obligations.RotationLosesNoBit := by
  intro x s hpos hle
  have hs : s < 32 := Nat.lt_succ_of_le hle
  exact ⟨fun i hi => getLsbD_rotl32_add_mod x hs hi, rotl32_rotl32_sub x hpos hs⟩

end Sys2Proof.Machine
end

section
/-! SUPPORT. The decoder as the inverse of the encoder (spec/30_encoding.md R55, R57): a transaction decodes to an
instruction exactly if the instruction is well-formed and encodes to it. -/

namespace Sys2Proof

/-- A word the decoder reads as a command is one of the eight of R57. -/
theorem mem_commandWords_of_decodeCommand {cmd : Word} {i : Instr} (h : decodeCommand cmd = .ok i) :
    cmd ∈ commandWords := by
  by_contra hc
  rw [decodeCommand_of_not_mem cmd hc] at h
  cases h

/-- A well-formed WCMD is none of the eight words of R57, so it stands for no command. -/
theorem decodeCommand_ne_ok_of_wellFormed {cmd : Word} (hw : wellFormed (.wcmd cmd) = true) (j : Instr) :
    decodeCommand cmd ≠ .ok j := by
  intro hj
  have hc := mem_commandWords_of_decodeCommand hj
  simp [wellFormed, hc] at hw

/-- Decoding the encoding of a well-formed instruction gives it back. -/
theorem decode_encode {i : Instr} (hw : wellFormed i = true) : decode (encode i) = .ok i := by
  cases i with
  | init | finalize | clearErr | wdata v | rdata | rstatus | rlenlo | rlenhi => rfl
  | update n =>
    exact (show ∀ n : Fin 8, wellFormed (.update n) = true → decode (encode (.update n)) = .ok (.update n) by
      decide) n hw
  | wcmd cmd => exact decode_commandWrite_of_not_mem cmd (by simpa [wellFormed] using hw)
  | rdigest k => fin_cases k <;> rfl
  | rhex k => fin_cases k <;> rfl

/-- An aligned offset in the page of DIGEST0..3 is that of DIGEST`k`, `k` its bits 3:2. -/
theorem digestOffset_eq {off : BitVec 8} (ha : off.extractLsb' 0 2 = 0) (hp : off.extractLsb' 4 4 = 0x2) :
    (0x20 + BitVec.ofNat 8 (4 * (off.extractLsb' 2 2).toNat) : BitVec 8) = off := by
  simp only [← BitVec.toNat_inj, BitVec.extractLsb'_toNat, Nat.shiftRight_eq_div_pow, BitVec.toNat_add,
    BitVec.toNat_ofNat, BitVec.reduceToNat, Nat.reducePow, Nat.div_one] at ha hp ⊢
  omega

/-- An aligned offset in the pages of HEX0..7 is that of HEX`k`, `k` its bits 4:2. -/
theorem hexOffset_eq {off : BitVec 8} (ha : off.extractLsb' 0 2 = 0) (hp : off.extractLsb' 5 3 = 0x2) :
    (0x40 + BitVec.ofNat 8 (4 * (off.extractLsb' 2 3).toNat) : BitVec 8) = off := by
  simp only [← BitVec.toNat_inj, BitVec.extractLsb'_toNat, Nat.shiftRight_eq_div_pow, BitVec.toNat_add,
    BitVec.toNat_ofNat, BitVec.reduceToNat, Nat.reducePow, Nat.div_one] at ha hp ⊢
  omega

/-- What a read decodes to is well-formed and encodes to that read. -/
theorem encode_of_decodeRead {off : BitVec 8} {i : Instr} (h : decodeRead off = .ok i) :
    wellFormed i = true ∧ encode i = .read off 4 := by
  unfold decodeRead at h
  split_ifs at h with ha hcmd hdata hstatus hlo hhi hdigest hhex <;> cases h
  · exact ⟨rfl, by rw [hdata]; rfl⟩
  · exact ⟨rfl, by rw [hstatus]; rfl⟩
  · exact ⟨rfl, by rw [hlo]; rfl⟩
  · exact ⟨rfl, by rw [hhi]; rfl⟩
  · exact ⟨rfl, congrArg (Transaction.read · 4) (digestOffset_eq (not_not.1 ha) hdigest)⟩
  · exact ⟨rfl, congrArg (Transaction.read · 4) (hexOffset_eq (not_not.1 ha) hhex)⟩

/-- What a write of CMD decodes to is well-formed and encodes to that write. -/
theorem encode_of_decode_commandWrite {cmd : Word} {i : Instr} (h : decode (commandWrite cmd) = .ok i) :
    wellFormed i = true ∧ encode i = commandWrite cmd := by
  by_cases hc : cmd ∈ commandWords
  · obtain ⟨j, hj, hw, he⟩ := decodeCommand_of_mem cmd hc
    rw [decode_commandWrite, hj] at h
    cases h
    exact ⟨hw, he⟩
  · rw [decode_commandWrite_of_not_mem cmd hc] at h
    cases h
    exact ⟨by simpa [wellFormed] using hc, rfl⟩

/-- What a write decodes to is well-formed and encodes to that write. -/
theorem encode_of_decodeWrite {off : BitVec 8} {v : Word} {i : Instr} (h : decodeWrite off v = .ok i) :
    wellFormed i = true ∧ encode i = .write off 4 v := by
  by_cases hcmd : off = 0x00
  · subst hcmd
    exact encode_of_decode_commandWrite (cmd := v) h
  · unfold decodeWrite at h
    rw [if_neg hcmd] at h
    split_ifs at h with ha hdata hro
    cases h
    exact ⟨rfl, by rw [hdata]; rfl⟩

/-- A transaction decodes to an instruction exactly if that is well-formed and encodes to it. -/
theorem decode_eq_ok_iff (x : Transaction) (i : Instr) :
    decode x = .ok i ↔ wellFormed i = true ∧ encode i = x := by
  constructor
  · intro h
    unfold decode at h
    split_ifs at h with hsize
    cases x with
    | read off size =>
      obtain rfl : size = 4 := not_not.1 hsize
      exact encode_of_decodeRead h
    | write off size v =>
      obtain rfl : size = 4 := not_not.1 hsize
      exact encode_of_decodeWrite h
  · rintro ⟨hw, rfl⟩
    exact decode_encode hw

end Sys2Proof
end

section
/-! SUPPORT. Everything a step can do, as one inversion lemma (spec/20_memory.md R48, R49): the whole-machine rules of
spec/10_state.md are read off it. -/

namespace Sys2Proof.Machine

/-- The effects a step can have, one constructor for each kind of input; a transaction that decodes is the encoding of a
well-formed instruction. -/
inductive StepEffect (s : State) : State → Prop where
  | idle (hp : s.pending = []) : StepEffect s s
  | instr {i : Instr} {rest : List HostInput} {t : State} (hp : s.pending = .transaction (encode i) :: rest)
      (hw : wellFormed i = true) (hx : exec i { s with pending := rest } = .next t) : StepEffect s t
  | busError {x : Transaction} {c : BusErrorCause} {rest : List HostInput} (hp : s.pending = .transaction x :: rest)
      (hd : decode x = .error c) : StepEffect s { s with pending := rest, response := .busError }
  | reset {rest : List HostInput} (hp : s.pending = .reset :: rest) :
      StepEffect s ({ s with pending := rest } : State).applyReset
  | resetDuring {x : Transaction} {rest : List HostInput} (hp : s.pending = .resetDuring x :: rest) :
      StepEffect s (({ s with pending := rest } : State).interruptByReset x)

/-- The inversion lemma of `step`: a next state is one of its effects. -/
theorem stepEffect_of_next {s t : State} (h : step s = .next t) : StepEffect s t := by
  rcases step_cases s with ⟨hp, hs⟩ | ⟨x, rest, i, hp, hd, hs⟩ | ⟨x, rest, c, hp, hd, hs⟩ | ⟨rest, hp, hs⟩ |
    ⟨x, rest, hp, hs⟩ <;> rw [hs] at h
  · cases h; exact .idle hp
  · obtain ⟨hw, rfl⟩ := (decode_eq_ok_iff x i).1 hd
    exact .instr hp hw h
  · cases h; exact .busError hp hd
  · cases h; exact .reset hp
  · cases h; exact .resetDuring hp

/-- A step whose next input is the encoding of a well-formed instruction runs it. -/
theorem step_of_encode {s : State} {i : Instr} {rest : List HostInput}
    (hp : s.pending = .transaction (encode i) :: rest) (hw : wellFormed i = true) :
    step s = exec i { s with pending := rest } :=
  step_of_decoded hp (decode_encode hw)

end Sys2Proof.Machine
end

section
/-! SUPPORT. The message a state holds (spec/10_state.md R33, R34) is kept by every instruction and every step. -/

namespace Sys2Proof.Machine

/-- The message after a WCMD of a command word is that after its command. -/
theorem messageAfterInstr_wcmd {cmd : Word} {j : Instr} (hj : decodeCommand cmd = .ok j) (s : State)
    (m : List Byte) : messageAfterInstr (.wcmd cmd) s m = messageAfterInstr j s m := by
  obtain ⟨i, hi, hcmd⟩ := decodeCommand_command cmd (mem_commandWords_of_decodeCommand hj)
  cases hj.symm.trans hi
  rcases hcmd with rfl | ⟨n, rfl⟩ | rfl | rfl <;> simp [messageAfterInstr, hj]

/-- A WCMD of any other word leaves the message. -/
theorem messageAfterInstr_wcmd_rejected {cmd : Word} (hc : cmd ∉ commandWords) (s : State) (m : List Byte) :
    messageAfterInstr (.wcmd cmd) s m = m := by
  simp [messageAfterInstr, decodeCommand_of_not_mem cmd hc]

theorem Represents.respond {s : State} {m : List Byte} (h : Represents s m) (r : Response) :
    Represents (s.respond r) m :=
  h.of_eq rfl rfl rfl rfl rfl rfl

theorem Represents.reject {s : State} {m : List Byte} (h : Represents s m) (code : ErrCode) :
    Represents (s.reject code) m :=
  h.of_eq rfl rfl rfl rfl rfl rfl

/-- Every instruction takes a state that holds a message to one that holds the message after it. -/
theorem Represents.execEffect {i : Instr} {s t : State} {m : List Byte} (h : Represents s m)
    (he : ExecEffect i s t) : Represents t (messageAfterInstr i s m) := by
  induction he with
  | plainRead r hi => rcases hi with rfl | rfl | rfl | rfl <;> exact h.respond r
  | dataWrite v hi => subst hi; exact h.of_eq rfl rfl rfl rfl rfl rfl
  | newEngine hi => subst hi; exact represents_empty rfl rfl rfl rfl rfl
  | clearError hi => subst hi; exact h.of_eq rfl rfl rfl rfl rfl rfl
  | finalize r hi =>
    rcases hi with rfl | ⟨k, rfl⟩ | ⟨k, rfl⟩ <;> exact h.finalizeEngine.respond r
  | updateAccepted n hi hn hf =>
    subst hi
    rw [messageAfterInstr, messageAfterUpdate, if_pos ⟨hn, hf⟩]
    exact (h.acceptUpdate hf n.val).respond _
  | updateInDone n hi hn hf =>
    subst hi
    rw [messageAfterInstr, messageAfterUpdate, if_neg (by simp [hf])]
    exact h.reject _
  | updateMalformed n hi hn =>
    subst hi
    rw [messageAfterInstr, messageAfterUpdate, if_neg (by omega)]
    exact h.reject _
  | commandMalformed cmd hi hc =>
    subst hi
    rw [messageAfterInstr_wcmd_rejected hc]
    exact h.reject _
  | command cmd j t hi hj ht he ih =>
    subst hi
    rw [messageAfterInstr_wcmd hj]
    exact ih h

/-- The message after an instruction does not depend on the inputs still to come. -/
theorem messageAfterInstr_pending (i : Instr) (s : State) (rest : List HostInput) (m : List Byte) :
    messageAfterInstr i { s with pending := rest } m = messageAfterInstr i s m := rfl

/-- The message after a step that takes an instruction is the message after that instruction. -/
theorem messageAfter_of_encode {s : State} {i : Instr} {rest : List HostInput}
    (hp : s.pending = .transaction (encode i) :: rest) (hw : wellFormed i = true) (m : List Byte) :
    messageAfter s m = messageAfterInstr i s m := by
  simp [messageAfter, hp, decode_encode hw]

/-- Settles O48, over the effects of a step: the engine's fields are those of the message after it. -/
theorem everyStepKeepsTheMessage : Obligations.EveryStepKeepsTheMessage := by
  intro s t m h hs
  cases stepEffect_of_next hs with
  | idle hp =>
    rw [messageAfter, hp]
    exact h
  | @instr i rest t hp hw hx =>
    rw [messageAfter_of_encode hp hw, ← messageAfterInstr_pending i s rest]
    exact Represents.execEffect (h.of_eq rfl rfl rfl rfl rfl rfl) (execEffect_of_next hx)
  | busError hp hd =>
    simp only [messageAfter, hp, hd]
    exact h.of_eq rfl rfl rfl rfl rfl rfl
  | reset hp =>
    rw [messageAfter, hp]
    exact represents_empty rfl rfl rfl rfl rfl
  | resetDuring hp =>
    rw [messageAfter, hp]
    exact represents_empty rfl rfl rfl rfl rfl

/-- Settles O47: R35 gives the fields that the empty message asks for. -/
theorem resetHoldsTheEmptyMessage : Obligations.ResetHoldsTheEmptyMessage :=
  represents_empty State.reset_H State.reset_bufLen State.reset_bitLen State.reset_lenOvf State.reset_finalized

/-- Settles O10: the reset state field by field. -/
theorem resetStateValues : Obligations.ResetStateValues :=
  ⟨State.reset_H, State.reset_bufLen, State.reset_bitLen, State.reset_finalized, State.reset_lenOvf,
    State.reset_ERR, State.reset_DATA⟩

end Sys2Proof.Machine
end

section
/-! SUPPORT. No operation reads a byte of `Buf` from `bufLen` on (spec/10_state.md R16): each takes indistinguishable
states to indistinguishable states. -/

namespace Sys2Proof.Machine

/-! ## The operations that do not read `Buf` -/

theorem Indistinguishable.respond {s t : State} (h : Indistinguishable s t) (r : Response) :
    Indistinguishable (s.respond r) (t.respond r) :=
  { h with response := rfl }

theorem Indistinguishable.reject {s t : State} (h : Indistinguishable s t) (code : ErrCode) :
    Indistinguishable (s.reject code) (t.reject code) :=
  { h with ERR := rfl, response := rfl }

theorem Indistinguishable.clearError {s t : State} (h : Indistinguishable s t) :
    Indistinguishable s.clearError t.clearError :=
  { h with ERR := rfl }

theorem Indistinguishable.writeData {s t : State} (h : Indistinguishable s t) (v : Word) :
    Indistinguishable { s with DATA := v } { t with DATA := v } :=
  { h with DATA := rfl }

theorem Indistinguishable.setPending {s t : State} (h : Indistinguishable s t) (rest : List HostInput) :
    Indistinguishable { s with pending := rest } { t with pending := rest } :=
  { h with pending := rfl }

theorem Indistinguishable.advanceLength {s t : State} (h : Indistinguishable s t) (n : Nat) :
    Indistinguishable (s.advanceLength n) (t.advanceLength n) :=
  { h with
    bitLen := congrArg (lengthAfter · n) h.bitLen
    lenOvf := congrArg₂ (lenOvfAfter · · n) h.lenOvf h.bitLen }

/-- A new engine has no meaningful byte of `Buf`, so the free bytes it draws are not seen. -/
theorem Indistinguishable.newEngine {s t : State} (h : Indistinguishable s t) :
    Indistinguishable s.newEngine t.newEngine where
  H := rfl
  Buf _ hj := absurd hj (Nat.not_lt_zero _)
  bufLen := rfl
  bitLen := rfl
  finalized := rfl
  lenOvf := rfl
  ERR := rfl
  DATA := h.DATA
  pending := h.pending
  response := h.response

/-- A reset core has no meaningful byte of `Buf`, so the free bytes it draws are not seen. -/
theorem Indistinguishable.applyReset {s t : State} (h : Indistinguishable s t) :
    Indistinguishable s.applyReset t.applyReset where
  H := rfl
  Buf _ hj := absurd hj (Nat.not_lt_zero _)
  bufLen := rfl
  bitLen := rfl
  finalized := rfl
  lenOvf := rfl
  ERR := rfl
  DATA := rfl
  pending := h.pending
  response := rfl

/-! ## The buffer controller -/

/-- The bytes up to the one just written agree, since those below it did. -/
theorem Indistinguishable.set_get {s t : State} (h : Indistinguishable s t) (x : Byte) (j : Nat) (hj : j < 64)
    (hle : j ≤ s.bufLen.val) :
    (s.Buf.set s.bufLen.val x s.bufLen.isLt)[j] = (t.Buf.set t.bufLen.val x t.bufLen.isLt)[j] := by
  rw [Vector.getElem_set, Vector.getElem_set, ← h.bufLen]
  split
  · rfl
  · exact h.Buf j (by omega)

/-- AppendByte reads the meaningful bytes alone: it compresses the buffer only when it has filled it. -/
theorem Indistinguishable.appendByte {s t : State} (h : Indistinguishable s t) (x : Byte) :
    Indistinguishable (s.appendByte x) (t.appendByte x) where
  H := by
    rw [State.appendByte_H, State.appendByte_H, ← h.H]
    by_cases hfull : s.bufLen.val = 63
    · rw [if_pos hfull, if_pos (h.bufLen ▸ hfull)]
      exact congrArg _ (Vector.ext fun j hj => h.set_get x j hj (by omega))
    · rw [if_neg hfull, if_neg (h.bufLen ▸ hfull)]
  Buf j hj := by
    rw [State.appendByte_bufLen] at hj
    simp only [State.appendByte_Buf]
    exact h.set_get x j (by omega) (by have := s.bufLen.isLt; omega)
  bufLen := Fin.ext (by rw [State.appendByte_bufLen, State.appendByte_bufLen, h.bufLen])
  bitLen := by simpa using h.bitLen
  finalized := by simpa using h.finalized
  lenOvf := by simpa using h.lenOvf
  ERR := by simpa using h.ERR
  DATA := by simpa using h.DATA
  pending := by simpa using h.pending
  response := by simpa using h.response

theorem Indistinguishable.appendBytes (xs : List Byte) :
    ∀ {s t : State}, Indistinguishable s t → Indistinguishable (s.appendBytes xs) (t.appendBytes xs) := by
  induction xs with
  | nil => exact id
  | cons x xs ih => exact fun h => ih (h.appendByte x)

theorem Indistinguishable.acceptUpdate {s t : State} (h : Indistinguishable s t) (n : Nat) :
    Indistinguishable (s.acceptUpdate n) (t.acceptUpdate n) := by
  rw [State.acceptUpdate, State.acceptUpdate, ← h.DATA]
  exact (h.advanceLength n).appendBytes _

/-! ## Finalize -/

theorem Indistinguishable.padded {s t : State} (h : Indistinguishable s t) :
    Indistinguishable s.padded t.padded := by
  rw [State.padded, State.padded, ← h.bufLen]
  exact h.appendBytes _

/-- The last block is meaningful whole: 56 bytes that the padding counts, then the length field. -/
theorem Indistinguishable.lastBlock_eq {s t : State} (h : Indistinguishable s t) :
    writeLength s.padded.Buf s.bitLen = writeLength t.padded.Buf t.bitLen := by
  refine Vector.ext fun j hj => ?_
  rw [writeLength_get _ _ _ hj, writeLength_get _ _ _ hj, h.bitLen]
  split
  next hlt => exact h.padded.Buf j (by rw [State.padded_bufLen]; exact hlt)
  next => rfl

theorem Indistinguishable.completeDigest {s t : State} (h : Indistinguishable s t) :
    Indistinguishable s.completeDigest t.completeDigest where
  H := by rw [State.completeDigest_H, State.completeDigest_H, h.padded.H, h.lastBlock_eq]
  Buf _ hj := absurd hj (Nat.not_lt_zero _)
  bufLen := rfl
  bitLen := by simpa using h.bitLen
  finalized := rfl
  lenOvf := by simpa using h.lenOvf
  ERR := by simpa using h.ERR
  DATA := by simpa using h.DATA
  pending := by simpa using h.pending
  response := by simpa using h.response

theorem Indistinguishable.finalizeEngine {s t : State} (h : Indistinguishable s t) :
    Indistinguishable s.finalizeEngine t.finalizeEngine := by
  cases hf : s.finalized with
  | true => rwa [State.finalizeEngine_of_done hf, State.finalizeEngine_of_done (h.finalized ▸ hf)]
  | false =>
    rw [State.finalizeEngine_of_open hf, State.finalizeEngine_of_open (h.finalized ▸ hf)]
    exact h.completeDigest

/-! ## Instructions and steps -/

/-- Both outcomes are next states that no observation can tell apart. -/
def IndistinguishableOutcomes (o p : Host.Outcome State Fault Refusal) : Prop :=
  ∃ s t, o = .next s ∧ p = .next t ∧ Indistinguishable s t

theorem Indistinguishable.statusWord_eq {s t : State} (h : Indistinguishable s t) : statusWord s = statusWord t := by
  rw [statusWord, statusWord, h.bufLen, h.ERR, h.lenOvf, h.finalized]

theorem Indistinguishable.update_outcomes {s t : State} (h : Indistinguishable s t) (n : Fin 8) :
    IndistinguishableOutcomes (exec (.update n) s) (exec (.update n) t) := by
  by_cases hn : n.val ≤ 4
  · cases hf : s.finalized with
    | true => exact ⟨_, _, exec_update_done hn hf, exec_update_done hn (h.finalized ▸ hf), h.reject _⟩
    | false =>
      exact ⟨_, _, exec_update_accepted hn hf, exec_update_accepted hn (h.finalized ▸ hf),
        (h.acceptUpdate _).respond _⟩
  · exact ⟨_, _, exec_update_malformed s (by omega), exec_update_malformed t (by omega), h.reject _⟩

/-- The four commands. -/
theorem Indistinguishable.command_outcomes {s t : State} (h : Indistinguishable s t) {i : Instr}
    (hi : i = .init ∨ (∃ n, i = .update n) ∨ i = .finalize ∨ i = .clearErr) :
    IndistinguishableOutcomes (exec i s) (exec i t) := by
  rcases hi with rfl | ⟨n, rfl⟩ | rfl | rfl
  · exact ⟨_, _, exec_init s, exec_init t, h.newEngine.respond _⟩
  · exact h.update_outcomes n
  · exact ⟨_, _, exec_finalize s, exec_finalize t, h.finalizeEngine.respond _⟩
  · exact ⟨_, _, exec_clearErr s, exec_clearErr t, h.clearError.respond _⟩

theorem Indistinguishable.wcmd_outcomes {s t : State} (h : Indistinguishable s t) (cmd : Word) :
    IndistinguishableOutcomes (exec (.wcmd cmd) s) (exec (.wcmd cmd) t) := by
  by_cases hc : cmd ∈ commandWords
  · obtain ⟨j, hj, hcmd⟩ := decodeCommand_command cmd hc
    rw [exec_wcmd_command s hj, exec_wcmd_command t hj]
    exact h.command_outcomes hcmd
  · exact ⟨_, _, exec_wcmd_rejected s hc, exec_wcmd_rejected t hc, h.reject _⟩

/-- Every instruction takes indistinguishable states to indistinguishable states, with the same response. -/
theorem Indistinguishable.exec_outcomes {s t : State} (h : Indistinguishable s t) (i : Instr) :
    IndistinguishableOutcomes (exec i s) (exec i t) := by
  cases i with
  | init => exact h.command_outcomes (.inl rfl)
  | update n => exact h.update_outcomes n
  | finalize => exact h.command_outcomes (.inr (.inr (.inl rfl)))
  | clearErr => exact h.command_outcomes (.inr (.inr (.inr rfl)))
  | wcmd cmd => exact h.wcmd_outcomes cmd
  | wdata v => exact ⟨_, _, exec_wdata v s, exec_wdata v t, (h.writeData v).respond _⟩
  | rdata => exact ⟨_, _, exec_rdata s, exec_rdata t, h.DATA ▸ h.respond _⟩
  | rstatus => exact ⟨_, _, exec_rstatus s, exec_rstatus t, h.statusWord_eq ▸ h.respond _⟩
  | rlenlo => exact ⟨_, _, exec_rlenlo s, exec_rlenlo t, h.bitLen ▸ h.respond _⟩
  | rlenhi => exact ⟨_, _, exec_rlenhi s, exec_rlenhi t, h.bitLen ▸ h.respond _⟩
  | rdigest k => exact ⟨_, _, exec_rdigest k s, exec_rdigest k t, h.finalizeEngine.H ▸ h.finalizeEngine.respond _⟩
  | rhex k => exact ⟨_, _, exec_rhex k s, exec_rhex k t, h.finalizeEngine.H ▸ h.finalizeEngine.respond _⟩

/-- Every step but that of an interrupted transaction takes indistinguishable states to indistinguishable states. -/
theorem Indistinguishable.step_outcomes {s t : State} (h : Indistinguishable s t)
    (hp : ∀ x rest, s.pending ≠ .resetDuring x :: rest) :
    IndistinguishableOutcomes (step s) (step t) := by
  rcases step_cases s with ⟨hs, e⟩ | ⟨x, rest, i, hs, hd, e⟩ | ⟨x, rest, c, hs, hd, e⟩ | ⟨rest, hs, e⟩ |
    ⟨x, rest, hs, -⟩
  · exact ⟨s, t, e, step_of_nil (h.pending ▸ hs), h⟩
  · rw [e, step_of_decoded (h.pending ▸ hs) hd]
    exact (h.setPending rest).exec_outcomes i
  · exact ⟨_, _, e, step_of_malformed (h.pending ▸ hs) hd, (h.setPending rest).respond _⟩
  · exact ⟨_, _, e, step_of_reset (h.pending ▸ hs), (h.setPending rest).applyReset⟩
  · exact absurd hs (hp x rest)

/-- Outcomes known as next states are indistinguishable through those states. -/
theorem IndistinguishableOutcomes.of_next {s t : State} (h : IndistinguishableOutcomes (.next s) (.next t)) :
    Indistinguishable s t := by
  obtain ⟨s', t', hs, ht, hst⟩ := h
  cases hs
  cases ht
  exact hst

/-- Settles O53: the operations see the meaningful bytes alone; after an interrupted transaction, all but the response is
that of a reset. -/
theorem unspecifiedBytesAreNeverObserved : Obligations.UnspecifiedBytesAreNeverObserved := by
  intro s t s' t' h hs ht
  have hstep : (∀ x rest, s.pending ≠ .resetDuring x :: rest) → Indistinguishable s' t' := fun hp =>
    IndistinguishableOutcomes.of_next (hs ▸ ht ▸ h.step_outcomes hp)
  refine ⟨hstep, ?_⟩
  by_cases hp : ∃ x rest, s.pending = .resetDuring x :: rest
  · obtain ⟨x, rest, hp⟩ := hp
    rw [step_of_resetDuring hp] at hs
    rw [step_of_resetDuring (h.pending ▸ hp)] at ht
    cases hs
    cases ht
    exact (h.setPending rest).applyReset.respond .noneYet
  · exact (hstep fun x rest hx => hp ⟨x, rest, hx⟩).respond .noneYet

end Sys2Proof.Machine
end

section
/-! SUPPORT. STATUS in numbers (spec/10_state.md R28, spec/40_control.md R69): the value of the word, its fields read off
it. -/

namespace Sys2Proof.Machine

/-- The value of two fields side by side. -/
theorem toNat_append_eq_add {m n : Nat} (hi : BitVec m) (lo : BitVec n) :
    (hi ++ lo).toNat = hi.toNat * 2 ^ n + lo.toNat := by
  rw [BitVec.toNat_append, ← Nat.shiftLeft_add_eq_or_of_lt lo.isLt, Nat.shiftLeft_eq]

/-- STATUS as a sum, each field at its place. -/
theorem statusWord_toNat (s : State) :
    (statusWord s).toNat =
      s.finalized.toNat + 2 * s.lenOvf.toNat + 4 * (errBits s.ERR).toNat + 256 * s.bufLen.val := by
  have hb := s.bufLen.isLt
  have he := (errBits s.ERR).isLt
  have hf := s.finalized.toNat_lt
  have hl := s.lenOvf.toNat_lt
  simp only [statusWord, BitVec.toNat_setWidth, toNat_append_eq_add, BitVec.toNat_ofNat, BitVec.toNat_ofBool]
  omega

/-- The code of an error (R21, R120). -/
theorem errBits_toNat (e : ErrCode) :
    (errBits e).toNat =
      (match e with | .none => 0 | .invalidState => 1 | .invalidInputType => 2 | .illegalCommand => 3) := by
  cases e <;> rfl

/-- FINALIZED is bit 0 of STATUS. -/
theorem statusWord_bit_zero (s : State) : (statusWord s).getLsbD 0 = s.finalized := by
  have hparity : (statusWord s).toNat % 2 = s.finalized.toNat := by
    have hf := s.finalized.toNat_lt
    rw [statusWord_toNat]
    omega
  rw [BitVec.getLsbD, Nat.testBit_zero, hparity]
  cases s.finalized <;> rfl

/-- LEN_OVF is bit 1 of STATUS. -/
theorem statusWord_bit_one (s : State) : (statusWord s).getLsbD 1 = s.lenOvf := by
  have hparity : (statusWord s).toNat / 2 % 2 = s.lenOvf.toNat := by
    have hf := s.finalized.toNat_lt
    have hl := s.lenOvf.toNat_lt
    rw [statusWord_toNat]
    omega
  rw [BitVec.getLsbD, Nat.testBit_succ, Nat.testBit_zero, hparity]
  cases s.lenOvf <;> rfl

/-- ERR is in bits 3:2 of STATUS, BUFLEN in bits 13:8, and the other bits above LEN_OVF are 0. -/
theorem statusWord_fields (s : State) :
    ((statusWord s).extractLsb' 2 2).toNat = (errBits s.ERR).toNat ∧ (statusWord s).extractLsb' 4 4 = 0 ∧
      ((statusWord s).extractLsb' 8 6).toNat = s.bufLen.val ∧ (statusWord s).extractLsb' 14 18 = 0 := by
  have hb := s.bufLen.isLt
  have he := (errBits s.ERR).isLt
  have hf := s.finalized.toNat_lt
  have hl := s.lenOvf.toNat_lt
  simp only [← BitVec.toNat_inj, BitVec.extractLsb'_toNat, statusWord_toNat, Nat.shiftRight_eq_div_pow,
    BitVec.reduceToNat]
  omega

/-- Settles O17: RSTATUS returns STATUS, whose fields are read off its value. -/
theorem statusReadReturnsTheFields : Obligations.StatusReadReturnsTheFields := by
  refine ⟨rfl, fun _ => rfl, fun s => ⟨statusWord s, exec_rstatus s, ?_⟩⟩
  obtain ⟨hErr, hReserved, hBufLen, hUpper⟩ := statusWord_fields s
  exact ⟨statusWord_bit_zero s, statusWord_bit_one s, hErr.trans (errBits_toNat _), hReserved, hBufLen, hUpper⟩

end Sys2Proof.Machine
end

section
/-! SUPPORT. Which steps write which field (spec/10_state.md R14, R18, R19, R20, R22), read off the effects of a
well-formed instruction and of a step. -/

namespace Sys2Proof.Machine

/-! ## DATA -/

/-- DATA is written by WDATA alone (R22). -/
theorem ExecEffect.DATA_cases {i : Instr} {s t : State} (he : ExecEffect i s t) (hw : wellFormed i = true) :
    t.DATA = s.DATA ∨ ∃ v, i = .wdata v ∧ t.DATA = v := by
  cases he with
  | dataWrite v hi => exact .inr ⟨v, hi, rfl⟩
  | command cmd j t hi hj => exact absurd hj (decodeCommand_ne_ok_of_wellFormed (hi ▸ hw) j)
  | _ => exact .inl (by simp)

/-- Settles O43, over the effects of a step. -/
theorem onlyHostWritesChangeData : Obligations.OnlyHostWritesChangeData := by
  intro s t hs
  cases stepEffect_of_next hs with
  | idle | busError => exact .inl rfl
  | @instr i rest t hp hw hx =>
    rcases (execEffect_of_next hx).DATA_cases hw with hkeep | ⟨v, rfl, hv⟩
    · exact .inl hkeep
    · exact .inr (.inl ⟨v, rest, hp, hv⟩)
  | reset hp => exact .inr (.inr ⟨rfl, _, .inl hp⟩)
  | resetDuring hp => exact .inr (.inr ⟨rfl, _, .inr ⟨_, hp⟩⟩)

/-! ## The phase -/

/-- The instructions that finalize (R64). -/
def Finalizing (i : Instr) : Prop := i = .finalize ∨ (∃ k, i = .rdigest k) ∨ ∃ k, i = .rhex k

/-- Every finalizing instruction is well-formed. -/
theorem wellFormed_of_finalizing {i : Instr} (hi : Finalizing i) : wellFormed i = true := by
  rcases hi with rfl | ⟨k, rfl⟩ | ⟨k, rfl⟩ <;> rfl

/-- The phase is left by INIT and entered by the finalizing instructions alone (R19). -/
theorem ExecEffect.phase_cases {i : Instr} {s t : State} (he : ExecEffect i s t) (hw : wellFormed i = true) :
    t.finalized = s.finalized ∨ (i = .init ∧ t.finalized = false) ∨ (Finalizing i ∧ t.finalized = true) := by
  cases he with
  | newEngine hi => exact .inr (.inl ⟨hi, rfl⟩)
  | finalize r hi => exact .inr (.inr ⟨hi, by simp⟩)
  | command cmd j t hi hj => exact absurd hj (decodeCommand_ne_ok_of_wellFormed (hi ▸ hw) j)
  | _ => exact .inl (by simp)

/-- The phase is left by INIT and reset and entered by the finalizing instructions alone, over every step (R19). -/
theorem step_phase_cases {s t : State} (hs : step s = .next t) :
    t.finalized = s.finalized ∨
      (∃ input rest, s.pending = input :: rest ∧ startsInstance input = true ∧ t.finalized = false) ∨
      (∃ i rest, s.pending = .transaction (encode i) :: rest ∧ Finalizing i ∧ t.finalized = true) := by
  cases stepEffect_of_next hs with
  | idle | busError => exact .inl rfl
  | @instr i rest t hp hw hx =>
    rcases (execEffect_of_next hx).phase_cases hw with hkeep | ⟨rfl, hopen⟩ | ⟨hfin, hdone⟩
    · exact .inl hkeep
    · exact .inr (.inl ⟨_, rest, hp, by decide, hopen⟩)
    · exact .inr (.inr ⟨i, rest, hp, hfin, hdone⟩)
  | reset hp | resetDuring hp => exact .inr (.inl ⟨_, _, hp, rfl, rfl⟩)

/-- Settles O41: of the ways a step treats the phase, the two directions each leave one. -/
theorem onlyTheseInputsChangeThePhase : Obligations.OnlyTheseInputsChangeThePhase := by
  intro s t hs
  rcases step_phase_cases hs with hkeep | ⟨input, rest, hp, hstart, hopen⟩ | ⟨i, rest, hp, hfin, hdone⟩
  · rw [hkeep]
    exact ⟨fun ho hd => by simp [ho] at hd, fun hd ho => by simp [hd] at ho⟩
  · exact ⟨fun _ hd => by simp [hopen] at hd, fun _ _ => ⟨input, rest, hp, hstart⟩⟩
  · exact ⟨fun _ _ => ⟨encode i, rest, i, hp, decode_encode (wellFormed_of_finalizing hfin), hfin⟩,
      fun _ ho => by simp [hdone] at ho⟩

/-! ## The length -/

/-- The length is cleared by INIT and advanced by an accepted UPDATE alone (R18, R20, R73). -/
theorem ExecEffect.length_cases {i : Instr} {s t : State} (he : ExecEffect i s t) (hw : wellFormed i = true) :
    (t.bitLen = s.bitLen ∧ t.lenOvf = s.lenOvf) ∨ (i = .init ∧ t.bitLen = 0 ∧ t.lenOvf = false) ∨
      (s.finalized = false ∧ ∃ n : Fin 8, i = .update n ∧ n.val ≤ 4 ∧ t.bitLen = lengthAfter s.bitLen n.val ∧
        t.lenOvf = lenOvfAfter s.lenOvf s.bitLen n.val) := by
  cases he with
  | newEngine hi => exact .inr (.inl ⟨hi, rfl, rfl⟩)
  | updateAccepted n hi hn hf => exact .inr (.inr ⟨hf, n, hi, hn, by simp, by simp⟩)
  | command cmd j t hi hj => exact absurd hj (decodeCommand_ne_ok_of_wellFormed (hi ▸ hw) j)
  | _ => exact .inl ⟨by simp, by simp⟩

/-- Settles O42, over the effects of a step. -/
theorem onlyUpdateAdvancesTheLength : Obligations.OnlyUpdateAdvancesTheLength := by
  intro s t hs
  cases stepEffect_of_next hs with
  | idle | busError => exact .inl ⟨rfl, rfl⟩
  | @instr i rest t hp hw hx =>
    rcases (execEffect_of_next hx).length_cases hw with hkeep | ⟨rfl, hclear⟩ | ⟨hf, n, rfl, hn, hbits, hovf⟩
    · exact .inl hkeep
    · exact .inr (.inl ⟨⟨_, rest, hp, by decide⟩, hclear⟩)
    · exact .inr (.inr ⟨hf, n, rest, hp, hn, by rw [hbits]; exact BitVec.toNat_ofNat _ _, hovf⟩)
  | reset hp | resetDuring hp => exact .inr (.inl ⟨⟨_, _, hp, rfl⟩, rfl, rfl⟩)

/-! ## The accumulator -/

/-- `H` after Finalize() in OPEN: one or two final blocks are compressed (R107). -/
theorem State.completeDigest_H_blocks (s : State) :
    s.completeDigest.H =
      if s.bufLen.val ≤ 55 then compress s.H (onlyFinalBlock s)
      else compress (compress s.H (firstFinalBlock s)) (secondFinalBlock s) := by
  split
  next h => exact s.completeDigest_H_oneBlock h
  next h => exact s.completeDigest_H_twoBlocks (by omega)

/-- A finalizing instruction answers the finalized state. -/
theorem exec_finalizing {i : Instr} (hi : Finalizing i) (s : State) :
    ∃ r, exec i s = .next (s.finalizeEngine.respond r) := by
  rcases hi with rfl | ⟨k, rfl⟩ | ⟨k, rfl⟩
  · exact ⟨_, exec_finalize s⟩
  · exact ⟨_, exec_rdigest k s⟩
  · exact ⟨_, exec_rhex k s⟩

/-- An input that finalizes is the encoding of a finalizing instruction, in OPEN. -/
theorem finalizes_iff (s : State) (input : HostInput) :
    finalizes s input ↔ s.finalized = false ∧ ∃ i, Finalizing i ∧ input = .transaction (encode i) := by
  unfold finalizes Finalizing
  constructor
  · rintro ⟨hf, rfl | ⟨k, rfl⟩ | ⟨k, rfl⟩⟩
    · exact ⟨hf, _, .inl rfl, rfl⟩
    · exact ⟨hf, _, .inr (.inl ⟨k, rfl⟩), rfl⟩
    · exact ⟨hf, _, .inr (.inr ⟨k, rfl⟩), rfl⟩
  · rintro ⟨hf, i, rfl | ⟨k, rfl⟩ | ⟨k, rfl⟩, rfl⟩
    · exact ⟨hf, .inl rfl⟩
    · exact ⟨hf, .inr (.inl ⟨k, rfl⟩)⟩
    · exact ⟨hf, .inr (.inr ⟨k, rfl⟩)⟩

/-- INIT and reset set `H` to IV (R15, R65, R138). -/
theorem step_H_of_startsInstance {s t : State} {input : HostInput} {rest : List HostInput}
    (hp : s.pending = input :: rest) (hs : step s = .next t) (hi : startsInstance input = true) : t.H = iv := by
  cases input with
  | transaction x =>
    obtain rfl : x = encode .init := by simpa [startsInstance] using hi
    rw [step_of_encode hp rfl, exec_init] at hs
    cases hs; rfl
  | reset => rw [step_of_reset hp] at hs; cases hs; rfl
  | resetDuring x => rw [step_of_resetDuring hp] at hs; cases hs; rfl

/-- An UPDATE that fills the buffer compresses the block it fills (R75). -/
theorem step_H_of_fillsBuffer {s t : State} {input : HostInput} {rest : List HostInput}
    (hp : s.pending = input :: rest) (hs : step s = .next t) (hi : fillsBuffer s input) :
    t.H = compress s.H (updateBlock s) := by
  obtain ⟨hf, n, hn, rfl, hfull⟩ := hi
  rw [step_of_encode hp (by simpa [wellFormed] using hn), exec_update_accepted hn (by exact hf)] at hs
  cases hs
  exact State.acceptUpdate_H_of_ge { s with pending := rest } n.val hfull (by omega)

/-- A finalize compresses its one or two blocks (R100, R107). -/
theorem step_H_of_finalizes {s t : State} {input : HostInput} {rest : List HostInput}
    (hp : s.pending = input :: rest) (hs : step s = .next t) (hi : finalizes s input) :
    t.H = if s.bufLen.val ≤ 55 then compress s.H (onlyFinalBlock s)
      else compress (compress s.H (firstFinalBlock s)) (secondFinalBlock s) := by
  obtain ⟨hf, i, hfin, rfl⟩ := (finalizes_iff s input).1 hi
  obtain ⟨r, hr⟩ := exec_finalizing hfin { s with pending := rest }
  rw [step_of_encode hp (wellFormed_of_finalizing hfin), hr, State.finalizeEngine_of_open (by exact hf)] at hs
  cases hs
  exact State.completeDigest_H_blocks { s with pending := rest }

/-- An instruction that makes no new engine, fills no buffer and does not finalize an open one keeps `H` (R14). -/
theorem ExecEffect.H_eq {i : Instr} {s t : State} (he : ExecEffect i s t) (hw : wellFormed i = true)
    (hinit : i ≠ .init)
    (hfill : ∀ n : Fin 8, i = .update n → n.val ≤ 4 → s.finalized = false → s.bufLen.val + n.val < 64)
    (hfin : Finalizing i → s.finalized = true) : t.H = s.H := by
  cases he with
  | newEngine hi => exact absurd hi hinit
  | updateAccepted n hi hn hf => exact State.acceptUpdate_H_of_lt s n.val (hfill n hi hn hf)
  | finalize r hi => rw [State.finalizeEngine_of_done (hfin hi)]; rfl
  | command cmd j t hi hj => exact absurd hj (decodeCommand_ne_ok_of_wellFormed (hi ▸ hw) j)
  | _ => simp

/-- Every other input keeps `H` (R14). -/
theorem step_H_eq {s t : State} {input : HostInput} {rest : List HostInput} (hp : s.pending = input :: rest)
    (hs : step s = .next t) (hstart : startsInstance input = false) (hfill : ¬ fillsBuffer s input)
    (hfin : ¬ finalizes s input) : t.H = s.H := by
  cases stepEffect_of_next hs with
  | idle | busError => rfl
  | instr hp' hw hx =>
    cases hp.symm.trans hp'
    refine (execEffect_of_next hx).H_eq hw ?_ ?_ ?_
    · rintro rfl
      exact absurd hstart (by decide)
    · rintro n rfl hn hf
      by_contra hfull
      exact hfill ⟨hf, n, hn, rfl, by simpa using hfull⟩
    · intro hi
      by_contra hopen
      exact hfin ((finalizes_iff s _).2 ⟨by simpa using hopen, _, hi, rfl⟩)
  | reset hp' | resetDuring hp' =>
    cases hp.symm.trans hp'
    simp [startsInstance] at hstart

/-- Settles O40: the three kinds of input that write `H`, and the frame of every other one. -/
theorem onlyCompressionWritesH : Obligations.OnlyCompressionWritesH := by
  refine ⟨fun s t input rest hp hs => ⟨step_H_of_startsInstance hp hs, step_H_of_fillsBuffer hp hs,
    step_H_of_finalizes hp hs, step_H_eq hp hs⟩, fun s t hp hs => ?_⟩
  rw [step_of_nil hp] at hs
  cases hs
  rfl

end Sys2Proof.Machine
end

section
/-! SUPPORT. The host port and the address window (spec/20_memory.md R36, R46, R48, R49): a step takes exactly the first
pending input, and a window offset is the distance of a bus address from CORE_BASE. -/

namespace Sys2Proof.Machine

/-! ## The port -/

/-- Settles O9: each kind of input has a next state, which keeps the inputs that follow; an idle port has none to lose. -/
theorem everyInputCompletesInPortOrder : Obligations.EveryInputCompletesInPortOrder := by
  intro s
  rcases step_cases s with ⟨hp, hs⟩ | ⟨x, rest, i, hp, -, hs⟩ | ⟨x, rest, c, hp, -, hs⟩ | ⟨rest, hp, hs⟩ |
    ⟨x, rest, hp, hs⟩ <;> rw [hs, hp]
  · exact ⟨s, rfl, hp⟩
  · exact exec_next i { s with pending := rest }
  all_goals exact ⟨_, rfl, rfl⟩

/-- Settles O6: the decoded arm of the step. -/
theorem stepRunsDecodedInstruction : Obligations.StepRunsDecodedInstruction :=
  fun _ _ _ _ hp hd => step_of_decoded hp hd

/-! ## The window -/

/-- A bus address has an offset in a core's window exactly if it is CORE_BASE plus that offset. -/
theorem offsetOfAddress_eq_some_iff (core address : Nat) (off : BitVec 8) :
    offsetOfAddress core address = some off ↔ address = Config.coreBase core + off.toNat := by
  have hoff : off.toNat < 256 := off.isLt
  unfold offsetOfAddress
  split
  next hwindow =>
    rw [Option.some_inj, ← BitVec.toNat_inj, BitVec.toNat_ofNat]
    omega
  next houtside =>
    constructor
    · rintro ⟨⟩
    · omega

/-- Settles O54: CORE_BASE is 256 times a whole number, and the window's offsets are the distances from it. -/
theorem windowIsAtCoreBase : Obligations.WindowIsAtCoreBase := fun core =>
  ⟨Nat.mul_mod_right 256 (Config.coreBaseIndex core),
    fun off => (offsetOfAddress_eq_some_iff core _ off).2 rfl,
    fun address off => (offsetOfAddress_eq_some_iff core address off).1⟩

end Sys2Proof.Machine
end

section
/-! SUPPORT. The obligations of the encoding (spec/30_encoding.md R55, R57, R60): decoder and encoder are inverse, every
word that is none of the eight is rejected, and a command word written through WCMD runs its command. -/

namespace Sys2Proof

/-- Settles O1: the encoder's inverse on well-formed instructions. -/
theorem decodeOfEncode : Obligations.DecodeOfEncode := fun _ hw => decode_encode hw

/-- Settles O2: the other direction of the inverse. -/
theorem encodeOfDecode : Obligations.EncodeOfDecode := fun x i h => (decode_eq_ok_iff x i).1 h

/-- Settles O5: membership in the eight words decides; why another word is none of them is arithmetic on its value. -/
theorem everyOtherCommandWordIsRejected : Obligations.EveryOtherCommandWordIsRejected := by
  intro cmd
  have hlt : cmd.toNat < 2 ^ 32 := cmd.isLt
  refine ⟨fun hmem => ?_, fun hnot => ⟨decodeCommand_of_not_mem cmd hnot, ?_, ?_⟩⟩
  · obtain ⟨i, hi, -⟩ := decodeCommand_of_mem cmd hmem
    exact ⟨i, hi⟩
  all_goals
    have hvalue := (mem_commandWords_iff cmd).not.1 hnot
    omega

/-- Settles O3: the writes of CMD by R59, every other row as the encoding of its instruction. -/
theorem acceptedDescriptorsDecode : Obligations.AcceptedDescriptorsDecode := by
  refine ⟨fun cmd i h => ?command, fun cmd code h => ?rejected, fun v => decode_encode (i := .wdata v) rfl,
    decode_encode (i := .rdata) rfl, decode_encode (i := .rstatus) rfl, decode_encode (i := .rlenlo) rfl,
    decode_encode (i := .rlenhi) rfl, fun k => ?digest, fun k => ?hex⟩
  case command => exact (decode_commandWrite cmd).trans (by rw [h])
  case rejected => exact (decode_commandWrite cmd).trans (by rw [h])
  case digest => rw [BitVec.ofNat_add]; exact decode_encode (i := .rdigest k) rfl
  case hex => rw [BitVec.ofNat_add]; exact decode_encode (i := .rhex k) rfl

/-- Settles O4, by evaluating the decoder on the twelve words. -/
theorem writtenOutWordsDecode : Obligations.WrittenOutWordsDecode := by
  unfold Obligations.WrittenOutWordsDecode
  decide

namespace Machine

/-- The word of UPDATE `n` as a number: OP 2 and NBYTES `n` (R56, R57). -/
theorem decodeCommand_updateWord {n : Fin 8} (hn : n.val ≤ 4) :
    decodeCommand (BitVec.ofNat 32 (2 + 16 * n.val)) = .ok (.update n) :=
  (show ∀ n : Fin 8, n.val ≤ 4 → decodeCommand (BitVec.ofNat 32 (2 + 16 * n.val)) = .ok (.update n) by
    decide) n hn

/-- A well-formed word written through WCMD and its command complete in the same next state (R59). -/
theorem exec_wcmd_next_of_decodeCommand {cmd : Word} {i : Instr} (h : decodeCommand cmd = .ok i) (s : State) :
    ∃ t, exec (.wcmd cmd) s = .next t ∧ exec i s = .next t := by
  obtain ⟨t, ht, -⟩ := exec_next i s
  exact ⟨t, (exec_wcmd_command s h).trans ht, ht⟩

/-- Settles O36: each of the eight words decodes to its command. -/
theorem commandWriteRunsTheCommand : Obligations.CommandWriteRunsTheCommand :=
  ⟨exec_wcmd_next_of_decodeCommand rfl, exec_wcmd_next_of_decodeCommand rfl, exec_wcmd_next_of_decodeCommand rfl,
    fun s _ hn => exec_wcmd_next_of_decodeCommand (decodeCommand_updateWord hn) s⟩

end Machine
end Sys2Proof
end

section
/-! SUPPORT. The pseudo-instructions of spec/30_encoding.md R63 as runs: a PUT feeds its chunk (spec/41_update.md R72,
R77), HASHBYTES is a sequence of PUTs, and a digest read after SEED gives the digest (spec/44_digest.md R111, R114). -/

namespace Sys2Proof.Machine

/-! ## The lanes of a chunk -/

/-- The lanes of a word packed from the first bytes of a string are those bytes, and 0 above its end. -/
theorem lane_packLanes_getD (c : List Byte) {j : Nat} (hj : j < 4) :
    lane (packLanes (c.getD 0 0) (c.getD 1 0) (c.getD 2 0) (c.getD 3 0)) j = c.getD j 0 := by
  refine BitVec.eq_of_getLsbD_eq fun i hi => ?_
  -- Bit `i` of lane `j` is bit `8j + i` of the word, which lies in its byte `j`.
  interval_cases j <;> simp only [lane, packLanes, BitVec.getLsbD_extractLsb', BitVec.getLsbD_append, hi]
  all_goals grind

/-- UPDATE takes back from DATA exactly the chunk that PUT packed there (R63, R72). -/
theorem updateBytes_packLanes {c : List Byte} (hc : c.length ≤ 4) :
    updateBytes (packLanes (c.getD 0 0) (c.getD 1 0) (c.getD 2 0) (c.getD 3 0)) c.length = c := by
  refine List.ext_getElem (updateBytes_length _ _) fun j hj hjc => ?_
  have hlane := lane_packLanes_getD c (j := j) (by omega)
  simpa [updateBytes, hjc] using hlane

/-! ## Feeding chunks -/

/-- An accepted PUT takes two steps: WDATA writes the word, UPDATE appends its first lanes (R63, R67, R71). -/
theorem run_put {s : State} {n : Fin 5} {v : Word} {rest : List HostInput} (hopen : s.finalized = false)
    (hp : s.pending = inputsOf (put n v) ++ rest) :
    Host.Core.run Sys2Proof.core 2 s =
      .next ((({ s with pending := rest, DATA := v, response := .writeDone } : State).acceptUpdate n.val).respond
        .writeDone) := by
  have hn : (n.castLE (by decide) : Fin 8).val ≤ 4 := Nat.le_of_lt_succ n.isLt
  have hdata : step s = .next { s with
      pending := .transaction (encode (.update (n.castLE (by decide)))) :: rest, DATA := v, response := .writeDone } :=
    step_of_encode (i := .wdata v) hp rfl
  exact (run_succ hdata).trans (run_succ
    ((step_of_encode (i := .update _) rfl (decide_eq_true hn)).trans (exec_update_accepted hn hopen)))

/-- A PUT of a chunk, in an OPEN state that holds a message, feeds the chunk (R63, R72, R77). -/
theorem run_putChunk {s : State} {m c : List Byte} {rest : List HostInput} (h : Represents s m)
    (hopen : s.finalized = false) (hc : c.length ≤ 4) (hp : s.pending = inputsOf (putChunk c) ++ rest) :
    ∃ t : State, Host.Core.run Sys2Proof.core 2 s = .next t ∧ Represents t (m ++ c) ∧
      t.finalized = false ∧ t.ERR = s.ERR ∧ t.pending = rest := by
  refine ⟨_, run_put hopen hp, ?_, by simpa using hopen, by simp, by simp⟩
  have hfed := Represents.acceptUpdate
    (s := { s with pending := rest, DATA := packLanes (c.getD 0 0) (c.getD 1 0) (c.getD 2 0) (c.getD 3 0),
                   response := .writeDone })
    (h.of_eq rfl rfl rfl rfl rfl rfl) hopen c.length
  simp only [Nat.min_eq_right hc]
  exact (updateBytes_packLanes hc ▸ hfed).respond _

/-- Feeding chunks of at most 4 bytes, in order, feeds their concatenation (R77). -/
theorem run_putChunks {chunks : List (List Byte)} :
    ∀ {s : State} {m : List Byte} {rest : List HostInput}, Represents s m → s.finalized = false →
      (∀ c ∈ chunks, c.length ≤ 4) → s.pending = inputsOf (chunks.flatMap putChunk) ++ rest →
        ∃ t : State, Host.Core.run Sys2Proof.core (2 * chunks.length) s = .next t ∧
          Represents t (m ++ chunks.flatten) ∧ t.finalized = false ∧ t.ERR = s.ERR ∧ t.pending = rest := by
  induction chunks with
  | nil =>
    intro s m rest h hopen _ hp
    exact ⟨s, rfl, by simpa using h, hopen, rfl, hp⟩
  | cons c cs ih =>
    intro s m rest h hopen hlen hp
    obtain ⟨hc, hcs⟩ := List.forall_mem_cons.1 hlen
    have hfirst : s.pending = inputsOf (putChunk c) ++ (inputsOf (cs.flatMap putChunk) ++ rest) := by
      simpa [inputsOf] using hp
    obtain ⟨u, hu, hrep, huopen, herr, hupend⟩ := run_putChunk h hopen hc hfirst
    obtain ⟨t, ht, htrep, htopen, hterr, htpend⟩ := ih hrep huopen hcs hupend
    refine ⟨t, ?_, by simpa using htrep, htopen, hterr.trans herr, htpend⟩
    rw [List.length_cons, show 2 * (cs.length + 1) = 2 + 2 * cs.length by omega]
    exact (run_add _ _ _ _ hu).trans ht

/-! ## HASHBYTES and SEED -/

/-- A sequence of PUTs has two instructions for each chunk. -/
theorem length_flatMap_putChunk (chunks : List (List Byte)) :
    (chunks.flatMap putChunk).length = 2 * chunks.length := by
  simp [List.length_flatMap, putChunk, put, Nat.mul_comm]

/-- HASHBYTES `m` is a PUT for each of the chunks of `m`: four bytes each, and the rest (R63). -/
theorem hashBytes_eq_flatMap_putChunk : ∀ m : List Byte, ∃ chunks : List (List Byte),
    hashBytes m = chunks.flatMap putChunk ∧ chunks.flatten = m ∧ (∀ c ∈ chunks, c.length ≤ 4) ∧
      chunks.length = (m.length + 3) / 4
  | b0 :: b1 :: b2 :: b3 :: rest => by
    obtain ⟨cs, hprog, hflat, hlen, hcount⟩ := hashBytes_eq_flatMap_putChunk rest
    refine ⟨[b0, b1, b2, b3] :: cs, by simp [hashBytes, hprog], by simp [hflat], by simpa using hlen, ?_⟩
    simp only [List.length_cons, hcount]
    omega
  | [] => ⟨[], rfl, rfl, by simp, rfl⟩
  | [b0] => ⟨[[b0]], rfl, rfl, by simp, by simp⟩
  | [b0, b1] => ⟨[[b0, b1]], rfl, rfl, by simp, by simp⟩
  | [b0, b1, b2] => ⟨[[b0, b1, b2]], rfl, rfl, by simp, by simp⟩

/-- Settles O51: the chunks of HASHBYTES concatenate to its message. -/
theorem hashBytesFeedsTheBytes : Obligations.HashBytesFeedsTheBytes := by
  intro s m₀ m rest h hopen hp
  obtain ⟨chunks, hprog, rfl, hlen, hcount⟩ := hashBytes_eq_flatMap_putChunk m
  rw [hprog] at hp ⊢
  rw [length_flatMap_putChunk]
  exact ⟨by rw [hcount], run_putChunks h hopen hlen hp⟩

/-- In a state that holds a message, Finalize() leaves its digest in `H`, in either phase (R108, R117). -/
theorem Represents.finalizeEngine_H {s : State} {m : List Byte} (h : Represents s m) :
    s.finalizeEngine.H = digestWords m :=
  (h.finalizeEngine.inDone s.finalizeEngine_finalized).H

/-- INIT, as the next input, leaves an OPEN state that holds the empty message, with ERR = 0 (R65). -/
theorem step_init {s : State} {rest : List HostInput} (hp : s.pending = .transaction (encode .init) :: rest) :
    ∃ t, step s = .next t ∧ Represents t [] ∧ t.finalized = false ∧ t.ERR = .none ∧ t.pending = rest :=
  ⟨_, (step_of_encode hp rfl).trans (exec_init _), represents_empty rfl rfl rfl rfl rfl, rfl, rfl, rfl⟩

/-- Settles O52: INIT holds the empty message, HASHBYTES extends it to `m`, and the reads finalize `m`. -/
theorem seedThenReadGivesTheDigest : Obligations.SeedThenReadGivesTheDigest := by
  intro s m rest hp
  obtain ⟨u, hinit, hempty, hopen, herr, hpend⟩ := step_init (rest := inputsOf (hashBytes m) ++ rest) hp
  obtain ⟨-, t, hrun, hrep, -, hterr, htpend⟩ := hashBytesFeedsTheBytes u [] m rest hempty hopen hpend
  have hH : t.finalizeEngine.H = digestWords m := hrep.finalizeEngine_H
  refine ⟨t, (run_succ hinit).trans hrun, hterr.trans herr, htpend, fun k => ⟨_, exec_rdigest k t, ?_⟩,
    fun k => ⟨_, exec_rhex k t, ?_⟩⟩
  · rw [State.respond_response, hH]
  · rw [State.respond_response, hH]

end Sys2Proof.Machine
end

section
/-! SUPPORT. The obligations of spec/40_control.md (R65 to R68, R70): INIT, CLEAR_ERR, DATA and the bit length read in
two halves. -/

namespace Sys2Proof.Machine

/-! ## INIT and CLEAR_ERR -/

/-- An INIT, FINALIZE or CLEAR_ERR word with a bit of 31:4 set is rejected with ILLEGAL_COMMAND (R60, R124). -/
theorem exec_wcmd_upperBits {cmd : Word} (s : State)
    (hop : cmd.toNat % 16 = 1 ∨ cmd.toNat % 16 = 3 ∨ cmd.toNat % 16 = 4) (hupper : cmd.toNat / 16 ≠ 0) :
    exec (.wcmd cmd) s = .next (s.reject .illegalCommand) := by
  have hnot : cmd ∉ commandWords := by
    rw [mem_commandWords_iff]
    omega
  have hnotUpdate : cmd.toNat % 16 ≠ 2 := by omega
  rw [exec_wcmd_rejected s hnot, if_neg hnotUpdate]

/-- Settles O14: INIT's state has an empty buffer, IV and length 0, which is how an OPEN state holds the empty message. -/
theorem initMakesNewEngine : Obligations.InitMakesNewEngine := by
  refine ⟨rfl, fun s => ?accepted, fun s cmd hop hupper => exec_wcmd_upperBits s (.inl hop) hupper⟩
  case accepted =>
    have hempty : Represents (s.newEngine.respond .writeDone) [] := represents_empty rfl rfl rfl rfl rfl
    exact ⟨_, exec_init s, rfl, rfl, rfl, rfl, rfl, rfl, rfl, rfl, rfl, hempty⟩

/-- Settles O15: the effect of CLEAR_ERR, and the rejection of its malformed words. -/
theorem clearErrClearsOnlyErr : Obligations.ClearErrClearsOnlyErr :=
  ⟨rfl, exec_clearErr, fun s _ hop hupper => exec_wcmd_upperBits s (.inr (.inr hop)) hupper⟩

/-! ## DATA -/

/-- Settles O16: the two effects, and the one read in the state the other leaves. -/
theorem dataWriteThenRead : Obligations.DataWriteThenRead := by
  refine ⟨fun v => decode_encode (i := .wdata v) rfl, decode_encode (i := .rdata) rfl,
    fun s v => exec_wdata v s, exec_rdata, fun s t u v hwrite hread => ?readBack⟩
  case readBack =>
    rw [exec_wdata] at hwrite
    cases hwrite
    rw [exec_rdata] at hread
    cases hread
    rfl

/-! ## The bit length -/

/-- Bits 31:0 of the bit length are its remainder by 2^32. -/
theorem bitLen_low_toNat (len : Len) : (len.extractLsb' 0 32).toNat = len.toNat % 2 ^ 32 := by
  rw [BitVec.extractLsb'_toNat, Nat.shiftRight_zero]

/-- Bits 63:32 of the bit length are its quotient by 2^32, which fits a word. -/
theorem bitLen_high_toNat (len : Len) : (len.extractLsb' 32 32).toNat = len.toNat / 2 ^ 32 := by
  have hfits : len.toNat / 2 ^ 32 < 2 ^ 32 := by
    have hlt : len.toNat < 2 ^ 64 := len.isLt
    omega
  rw [BitVec.extractLsb'_toNat, Nat.shiftRight_eq_div_pow, Nat.mod_eq_of_lt hfits]

/-- Settles O18: the two reads and the values of the halves they return. -/
theorem lengthReadsReturnTheHalves : Obligations.LengthReadsReturnTheHalves :=
  ⟨decode_encode (i := .rlenlo) rfl, decode_encode (i := .rlenhi) rfl, fun s =>
    ⟨_, _, exec_rlenlo s, exec_rlenhi s, bitLen_low_toNat s.bitLen, bitLen_high_toNat s.bitLen⟩⟩

end Sys2Proof.Machine
end

section
/-! SUPPORT. The obligations of spec/41_update.md (R71 to R75, R77, R78): what an accepted UPDATE writes, UPDATE 0, and a
message fed in chunks. -/

namespace Sys2Proof.Machine

/-! ## Chunks -/

/-- Settles O50: each PUT extends the message by its chunk, by induction over the chunks. -/
theorem chunksFeedTheirConcatenation : Obligations.ChunksFeedTheirConcatenation :=
  fun _ _ _ _ h hopen hlen hp => run_putChunks h hopen hlen hp

/-! ## What an accepted UPDATE writes -/

/-- The counter after `n` more bytes is the exact sum modulo 2^64 (R73). -/
theorem lengthAfter_toNat (len : Len) (n : Nat) :
    (lengthAfter len n).toNat = (len.toNat + 8 * n) % 2 ^ 64 :=
  BitVec.toNat_ofNat _ _

/-- `bufLen` after an accepted UPDATE counts the operand bytes, from 0 again after 63 (R75). -/
theorem State.acceptUpdate_bufLen (s : State) (n : Nat) :
    (s.acceptUpdate n).bufLen.val = (s.bufLen.val + n) % 64 := by
  rw [State.acceptUpdate, State.appendBytes_bufLen, updateBytes_length, State.advanceLength_bufLen]

/-- `H` after an accepted UPDATE of at most 64 bytes: at most one block is compressed, the one it fills (R71, R78). -/
theorem State.acceptUpdate_H (s : State) {n : Nat} (hn : n ≤ 64) :
    (s.acceptUpdate n).H =
      if s.bufLen.val + n < 64 then s.H else compress s.H (updateBlock s) := by
  split
  next hroom => exact s.acceptUpdate_H_of_lt n hroom
  next hfull => exact s.acceptUpdate_H_of_ge n (by omega) hn

/-- Settles O19: an accepted UPDATE field by field, and the two rejections. -/
theorem updateFeedsDataLanes : Obligations.UpdateFeedsDataLanes := by
  refine ⟨fun _ hn => decodeCommand_updateWord hn, fun s n hn hopen => ?accepted,
    fun s _ hn => exec_update_malformed s hn, fun _ _ hn hdone => exec_update_done hn hdone⟩
  case accepted =>
    have hfits : n.val ≤ 64 := by omega
    refine ⟨_, exec_update_accepted hn hopen, s.acceptUpdate_bufLen n.val, ?bitLen, s.acceptUpdate_lenOvf n.val,
      fun j => s.acceptUpdate_Buf n.val hfits j.val j.isLt, s.acceptUpdate_H hfits, ?finalized,
      s.acceptUpdate_ERR n.val, s.acceptUpdate_DATA n.val, s.acceptUpdate_pending n.val, rfl⟩
    case bitLen => rw [State.respond_bitLen, State.acceptUpdate_bitLen, lengthAfter_toNat]
    case finalized => rw [State.respond_finalized, State.acceptUpdate_finalized, hopen]

/-! ## UPDATE 0 -/

/-- No more bytes leave the counter, which is below 2^64. -/
theorem lengthAfter_zero (len : Len) : lengthAfter len 0 = len := by
  rw [lengthAfter, lengthSum, Nat.mul_zero, Nat.add_zero, BitVec.ofNat_toNat, BitVec.setWidth_eq]

/-- No more bytes set no overflow: the sum is the counter itself, which is below 2^64. -/
theorem lenOvfAfter_zero (ovf : Bool) (len : Len) : lenOvfAfter ovf len 0 = ovf := by
  have hlt : ¬ 2 ^ 64 ≤ len.toNat := Nat.not_le.2 len.isLt
  rw [lenOvfAfter, lengthSum, Nat.mul_zero, Nat.add_zero, decide_eq_false hlt, Bool.or_false]

/-- An accepted UPDATE 0 leaves the state: it appends no byte and advances the length by 0 (R74). -/
theorem State.acceptUpdate_zero (s : State) : s.acceptUpdate 0 = s :=
  calc s.acceptUpdate 0 = s.advanceLength 0 := rfl
    _ = s := by rw [State.advanceLength, lengthAfter_zero, lenOvfAfter_zero]

/-- Settles O20: an accepted UPDATE 0 leaves the state and an UPDATE in DONE is rejected. -/
theorem updateZeroChangesNothing : Obligations.UpdateZeroChangesNothing := by
  refine ⟨fun s hopen => ?accepted, fun _ hdone => exec_update_done (Nat.zero_le 4) hdone⟩
  case accepted =>
    have hexec : exec (.update 0) s = .next ((s.acceptUpdate 0).respond .writeDone) :=
      exec_update_accepted (n := 0) (Nat.zero_le 4) hopen
    rw [hexec, State.acceptUpdate_zero]
    rfl

end Sys2Proof.Machine
end

section
/-! SUPPORT. The schedule of the compression (spec/42_compression.md R80 to R92): which round a step is in, its mixing
function, message word and rotation, and the 64 steps one after the other; and how many blocks the padded message has
(R97). -/

namespace Sys2Proof.Machine

/-! ## The schedule, round by round -/

/-- Sixteen steps a round (R83). -/
theorem roundOf_eq_ite (i : Fin 64) :
    roundOf i = if i.val < 16 then 0 else if i.val < 32 then 1 else if i.val < 48 then 2 else 3 := by
  apply Fin.ext
  rw [roundOf]
  split_ifs <;> simp only [Fin.coe_ofNat_eq_mod] <;> omega

/-- The mixing function of each round (R85 to R88). -/
theorem mix_roundOf (i : Fin 64) (b c d : Word) :
    mix (roundOf i) b c d =
      if i.val < 16 then (b &&& c) ||| (~~~b &&& d) else if i.val < 32 then (b &&& d) ||| (c &&& ~~~d)
      else if i.val < 48 then b ^^^ c ^^^ d else c ^^^ (b ||| ~~~d) := by
  rw [roundOf_eq_ite]
  split_ifs <;> rfl

/-- The message index before it is reduced modulo 16 (R90). -/
theorem messageIndex_eq_ofNat (i : Fin 64) :
    messageIndex i = Fin.ofNat 16
      (if i.val < 16 then i.val else if i.val < 32 then 5 * i.val + 1
       else if i.val < 48 then 3 * i.val + 5 else 7 * i.val) := by
  rw [messageIndex, roundOf_eq_ite]
  split_ifs <;> rfl

/-- The rotation amount of each step (R92). -/
theorem rotation_eq_getD : ∀ i : Fin 64, rotation i =
    (if i.val < 16 then [7, 12, 17, 22] else if i.val < 32 then [5, 9, 14, 20]
     else if i.val < 48 then [4, 11, 16, 23] else [6, 10, 15, 21]).getD (i.val % 4) 0 := by
  decide

/-- No step rotates by a whole word or more. -/
theorem rotation_lt : ∀ i : Fin 64, rotation i < 32 := by decide

/-! ## One compression -/

/-- The steps run in increasing order (R82, R91). -/
theorem workAfter_succ (H : Accumulator) (blk : Block) (i : Fin 64) :
    workAfter H blk (i.val + 1) = compressStep blk (workAfter H blk i.val) i := by
  rw [workAfter, dif_pos i.isLt]

/-- Settles O22: the working variables after each step are the ones the obligation asks for. -/
theorem compressionIsSixtyFourSteps : Obligations.CompressionIsSixtyFourSteps := by
  intro H blk
  refine ⟨fun n => (workAfter H blk n).a, fun n => (workAfter H blk n).b, fun n => (workAfter H blk n).c,
    fun n => (workAfter H blk n).d, ⟨rfl, rfl, rfl, rfl⟩, fun i => ?step, ?feedForward⟩
  case step =>
    simp only [workAfter_succ, ← mix_roundOf, ← messageIndex_eq_ofNat, ← rotation_eq_getD,
      ← rotl32_eq_rotateLeft _ (rotation_lt i)]
    exact ⟨rfl, rfl, rfl, rfl⟩
  case feedForward => rw [compress, addBack]

/-! ## The message words -/

/-- Settles O23: the value of the four bytes side by side. -/
theorem messageWordsAreLittleEndian : Obligations.MessageWordsAreLittleEndian := by
  intro blk j
  simp only [messageWord, toNat_append_eq_add]
  ring

/-- The message index of each step (R90). -/
theorem messageIndex_val (i : Fin 64) :
    (messageIndex i).val =
      if i.val < 16 then i.val % 16 else if i.val < 32 then (5 * i.val + 1) % 16
      else if i.val < 48 then (3 * i.val + 5) % 16 else 7 * i.val % 16 := by
  rw [messageIndex_eq_ofNat, Fin.val_ofNat]
  split_ifs <;> rfl

/-- Two steps of one round never use the same message word: the factors 1, 5, 3 and 7 are odd. -/
theorem messageIndex_inj_of_round {i k : Fin 64} (hround : i.val / 16 = k.val / 16)
    (hindex : messageIndex i = messageIndex k) : i = k := by
  have h16 : i.val < 16 ↔ k.val < 16 := by omega
  have h32 : i.val < 32 ↔ k.val < 32 := by omega
  have h48 : i.val < 48 ↔ k.val < 48 := by omega
  have hval := congrArg Fin.val hindex
  simp only [messageIndex_val, h16, h32, h48] at hval
  apply Fin.ext
  split_ifs at hval <;> omega

/-- Step `q` of round `r`. -/
def stepOfRound (r : Fin 4) (q : Fin 16) : Fin 64 := ⟨16 * r.val + q.val, by omega⟩

/-- The round of that step is `r`. -/
theorem stepOfRound_div (r : Fin 4) (q : Fin 16) : (stepOfRound r q).val / 16 = r.val := by
  simp only [stepOfRound]
  omega

/-- The sixteen steps of a round use sixteen message words, so all of them. -/
theorem messageIndex_stepOfRound_surjective (r : Fin 4) :
    Function.Surjective fun q => messageIndex (stepOfRound r q) := by
  refine Finite.surjective_of_injective fun p q hindex => ?_
  have hround : (stepOfRound r p).val / 16 = (stepOfRound r q).val / 16 := by
    rw [stepOfRound_div, stepOfRound_div]
  have hstep := congrArg Fin.val (messageIndex_inj_of_round hround hindex)
  simp only [stepOfRound] at hstep
  omega

/-- Settles O24: within a round the message index is injective, so a permutation of the sixteen words. -/
theorem everyMessageWordOncePerRound : Obligations.EveryMessageWordOncePerRound := by
  refine ⟨messageIndex_val, fun r j => ?once⟩
  case once =>
    obtain ⟨q, hq⟩ := messageIndex_stepOfRound_surjective r j
    refine ⟨stepOfRound r q, ⟨stepOfRound_div r q, hq⟩, fun k ⟨hround, hindex⟩ => ?_⟩
    exact messageIndex_inj_of_round (hround.trans (stepOfRound_div r q).symm) (hindex.trans hq.symm)

/-! ## The blocks of the padded message -/

/-- The marker byte, the zeros and the eight length bytes (R108). -/
theorem padMessage_length (m : List Byte) : (padMessage m).length = m.length + zeroCount m.length + 9 := by
  simp only [padMessage, List.length_append, List.length_cons, List.length_nil, List.length_replicate,
    lengthBytes_length]
  omega

/-- Settles O30: the length field still fits in the last block up to 55 bytes of tail. -/
theorem paddedBlockCount : Obligations.PaddedBlockCount := by
  intro m
  rw [padMessage_length, zeroCount]
  constructor <;> intro htail <;> omega

end Sys2Proof.Machine
end

section
/-! SUPPORT. The ROM of sine constants (spec/42_compression.md R93): each entry against the enclosure of its sine, in
integers, and what that says of the exact real. -/

namespace Sys2Proof.Machine

/-- A number at least `δ` inside the interval from `k` to `k + 1` has the floor `k`, and its fraction keeps that margin. -/
theorem floor_fract_of_margin {x δ : ℝ} {k : ℤ} (hδ : 0 < δ) (hlo : k + δ ≤ x) (hhi : x ≤ k + (1 - δ)) :
    k = ⌊x⌋ ∧ δ ≤ Int.fract x ∧ Int.fract x ≤ 1 - δ := by
  have hfloor : ⌊x⌋ = k := Int.floor_eq_iff.2 ⟨by linarith, by linarith⟩
  refine ⟨hfloor.symm, ?_, ?_⟩ <;> rw [Int.fract, hfloor] <;> linarith

/-- The enclosure of |sin n| up to n = 64: the error of `sinCos_bound` has doubled at most 64 times. -/
theorem abs_sin_bound {n : Nat} (hn : n ≤ 64) :
    |(|Real.sin n| * 2 ^ 128 - |((sinCos n).1 : ℝ)|)| ≤ 3 * 2 ^ 64 := by
  have hpow : (2 : ℝ) ^ n ≤ 2 ^ 64 := pow_le_pow_right₀ (by norm_num) hn
  have habs : |Real.sin n| * 2 ^ 128 = |Real.sin n * 2 ^ 128| := by
    rw [abs_mul, abs_of_pos (show (0 : ℝ) < 2 ^ 128 by positivity)]
  calc |(|Real.sin n| * 2 ^ 128 - |((sinCos n).1 : ℝ)|)|
      = |(|Real.sin n * 2 ^ 128| - |((sinCos n).1 : ℝ)|)| := by rw [habs]
    _ ≤ |Real.sin n * 2 ^ 128 - ((sinCos n).1 : ℝ)| := abs_abs_sub_abs_le _ _
    _ ≤ 3 * (2 ^ n - 1) := (sinCos_bound n).1
    _ ≤ 3 * 2 ^ 64 := by linarith

/-- Each ROM entry against the enclosure, in units of 2^-96 / 10000: the enclosed sine times 2^32 lies inside the
entry's unit interval by 0.0154 and the error of the enclosure. The kernel computes the 64 enclosures. -/
theorem kTable_margin : ∀ i : Fin 64,
    (10000 * kTable[i].toNat + 154) * 2 ^ 96 + 30000 * 2 ^ 64 ≤ 10000 * (sinCos (i.val + 1)).1.natAbs ∧
      10000 * (sinCos (i.val + 1)).1.natAbs + 30000 * 2 ^ 64 ≤ (10000 * kTable[i].toNat + 9846) * 2 ^ 96 := by
  decide +kernel

/-- Settles O26: the integer margins of the ROM entries, read through the enclosure of the sine. -/
theorem sineTable : Obligations.SineTable := by
  intro i
  obtain ⟨hlo, hhi⟩ := kTable_margin i
  obtain ⟨hsinLo, hsinHi⟩ := abs_le.1 (abs_sin_bound (n := i.val + 1) (by omega))
  rify at hlo hhi
  push_cast at hsinLo hsinHi
  refine floor_fract_of_margin (by norm_num) ?lower ?upper <;> push_cast <;> linarith

end Sys2Proof.Machine
end

section
/-! SUPPORT. The obligations of spec/43_finalize.md (R99 to R109): what Finalize() compresses, the padding of a whole
message, the digest a read returns, and what stays as it is in DONE. -/

namespace Sys2Proof.Machine

/-! ## The digest of the message -/

/-- Settles O49: both reads finalize, which leaves the digest of the message in `H` and keeps the message. -/
theorem digestReadsGiveTheDigestOfTheMessage : Obligations.DigestReadsGiveTheDigestOfTheMessage := by
  intro s m h
  have hH : s.finalizeEngine.H = digestWords m := h.finalizeEngine_H
  refine ⟨fun k => ⟨_, exec_rdigest k s, ?word, h.finalizeEngine.respond _⟩,
    fun k => ⟨_, exec_rhex k s, ?characters, h.finalizeEngine.respond _⟩⟩
  case word => rw [State.respond_response, hH]
  case characters => rw [State.respond_response, hH]

/-! ## FINALIZE -/

/-- FINALIZE in OPEN completes the digest (R99, R100). -/
theorem exec_finalize_open {s : State} (hopen : s.finalized = false) :
    exec .finalize s = .next (s.completeDigest.respond .writeDone) := by
  rw [exec_finalize, State.finalizeEngine_of_open hopen]

/-- FINALIZE in DONE writes the response alone (R101). -/
theorem exec_finalize_done {s : State} (hdone : s.finalized = true) :
    exec .finalize s = .next (s.respond .writeDone) := by
  rw [exec_finalize, State.finalizeEngine_of_done hdone]

/-- Settles O27: the one or the two final blocks, and the other fields one by one. -/
theorem finalizePadsAndCompresses : Obligations.FinalizePadsAndCompresses :=
  ⟨rfl, fun s hopen => ⟨_, exec_finalize_open hopen, s.completeDigest_H_oneBlock, s.completeDigest_H_twoBlocks,
    s.completeDigest_bufLen, s.completeDigest_finalized, s.completeDigest_bitLen, s.completeDigest_lenOvf,
    s.completeDigest_ERR, s.completeDigest_DATA, s.completeDigest_pending, rfl⟩⟩

/-- Settles O28: FINALIZE in DONE, and the rejection of its malformed words. -/
theorem finalizeIsIdempotent : Obligations.FinalizeIsIdempotent :=
  ⟨fun _ hdone => exec_finalize_done hdone, fun s _ hop hupper => exec_wcmd_upperBits s (.inr (.inl hop)) hupper⟩

/-! ## The padding -/

/-- `zeroCount` zero bytes after the marker bring the length to 56 modulo 64, and no fewer do (R108). -/
theorem isLeast_zeroCount (len : Nat) : IsLeast { k : Nat | (len + 1 + k) % 64 = 56 } (zeroCount len) := by
  rw [zeroCount]
  constructor
  · show (len + 1 + (119 - len % 64) % 64) % 64 = 56
    omega
  · intro k hk
    have hbrings : (len + 1 + k) % 64 = 56 := hk
    omega

/-- The padded message is a whole number of blocks (R108). -/
theorem padMessage_length_mod (m : List Byte) : (padMessage m).length % 64 = 0 := by
  rw [padMessage_length, zeroCount]
  omega

/-- Settles O29: the zeros by arithmetic modulo 64, and the eight length bytes after them fill the last block. -/
theorem paddingIsLeastAndWhole : Obligations.PaddingIsLeastAndWhole := fun m =>
  ⟨isLeast_zeroCount m.length, padMessage_length_mod m⟩

/-! ## The engine in DONE -/

/-- The fields of an engine: all that INIT starts anew but ERR (R65, R109). -/
def State.engineFields (s : State) : Accumulator × Block × Fin 64 × Len × Bool × Bool :=
  (s.H, s.Buf, s.bufLen, s.bitLen, s.lenOvf, s.finalized)

/-- In DONE an instruction that makes no new engine keeps the engine: UPDATE is rejected and Finalize() does nothing
(R109). -/
theorem ExecEffect.engineFields_of_done {i : Instr} {s t : State} (he : ExecEffect i s t)
    (hw : wellFormed i = true) (hinit : i ≠ .init) (hdone : s.finalized = true) :
    t.engineFields = s.engineFields := by
  cases he with
  | newEngine hi => exact absurd hi hinit
  | updateAccepted n hi hn hopen => rw [hdone] at hopen; cases hopen
  | finalize r hi => rw [State.finalizeEngine_of_done hdone]; rfl
  | command cmd j t hi hj => exact absurd hj (decodeCommand_ne_ok_of_wellFormed (hi ▸ hw) j)
  | plainRead | dataWrite | clearError | updateInDone | updateMalformed | commandMalformed => rfl

/-- In DONE a step whose input is neither INIT nor reset keeps the engine (R109). -/
theorem step_engineFields_of_done {s t : State} (hdone : s.finalized = true)
    (hkeep : ∀ input rest, s.pending = input :: rest → startsInstance input = false) (hs : step s = .next t) :
    t.engineFields = s.engineFields := by
  cases stepEffect_of_next hs with
  | idle | busError => rfl
  | @instr i rest t hp hw hx =>
    refine (execEffect_of_next hx).engineFields_of_done hw ?notInit hdone
    case notInit =>
      rintro rfl
      exact absurd (hkeep _ _ hp) (by decide)
  | reset hp | resetDuring hp => exact absurd (hkeep _ _ hp) (by simp [startsInstance])

/-- Settles O44: the fields of the engine one by one. -/
theorem doneInstanceIsFrozen : Obligations.DoneInstanceIsFrozen := by
  intro s t hdone hkeep hs
  have hfields := step_engineFields_of_done hdone hkeep hs
  simp only [State.engineFields, Prod.mk.injEq] at hfields
  obtain ⟨hH, hBuf, hbufLen, hbitLen, hlenOvf, hphase⟩ := hfields
  exact ⟨hH, hBuf, hbufLen, hbitLen, hlenOvf, hphase.trans hdone⟩

/-! ## The buffer in DONE -/

/-- In DONE no byte is buffered (R69, R106). -/
def State.EmptyWhenDone (s : State) : Prop := s.finalized = true → s.bufLen = 0

/-- Finalize() leaves the buffer empty: it empties it itself, or finds it so in DONE (R101, R106). -/
theorem State.EmptyWhenDone.finalizeEngine_bufLen {s : State} (h : s.EmptyWhenDone) :
    s.finalizeEngine.bufLen = 0 := by
  cases hphase : s.finalized with
  | true => rw [State.finalizeEngine_of_done hphase, h hphase]
  | false => rw [State.finalizeEngine_of_open hphase, State.completeDigest_bufLen]

/-- Every instruction keeps the buffer empty in DONE: Finalize() alone enters DONE, and only in OPEN is an UPDATE
accepted. -/
theorem ExecEffect.emptyWhenDone {i : Instr} {s t : State} (he : ExecEffect i s t) (h : s.EmptyWhenDone) :
    t.EmptyWhenDone := by
  induction he with
  | newEngine => exact fun _ => rfl
  | updateAccepted n hi hn hopen =>
    intro hdone
    rw [State.respond_finalized, State.acceptUpdate_finalized, hopen] at hdone
    cases hdone
  | finalize r hi => exact fun _ => h.finalizeEngine_bufLen
  | command cmd j t hi hj ht he ih => exact ih h
  | plainRead | dataWrite | clearError | updateInDone | updateMalformed | commandMalformed => exact h

/-- Settles O46: over the effects of a step; the reset state is OPEN. -/
theorem doneHasAnEmptyBuffer : Obligations.DoneHasAnEmptyBuffer := by
  refine ⟨fun _ => State.reset_bufLen, fun s t h hs => ?step⟩
  case step =>
    show t.EmptyWhenDone
    cases stepEffect_of_next hs with
    | idle | busError => exact h
    | @instr i rest t hp hw hx => exact (execEffect_of_next hx).emptyWhenDone h
    | reset | resetDuring => exact fun _ => rfl

end Sys2Proof.Machine
end

section
/-! SUPPORT. The obligations of spec/44_digest.md (R110 to R116): the digest words and the hex characters that the reads
return, as numbers, and that the reads repeat once the digest is complete. -/

namespace Sys2Proof.Machine

/-! ## The digest words -/

/-- Settles O31: RDIGEST answers in the state Finalize() leaves, which in DONE is the state itself. -/
theorem digestReadReturnsWord : Obligations.DigestReadReturnsWord := by
  obtain ⟨-, -, -, -, -, -, -, hdecode, -⟩ := acceptedDescriptorsDecode
  refine ⟨hdecode, fun s k hdone => ?done, fun s k hopen => ⟨_, exec_finalize_open hopen, ?read, rfl, rfl,
    s.completeDigest_ERR, s.completeDigest_lenOvf⟩⟩
  case done => rw [exec_rdigest, State.finalizeEngine_of_done hdone]; rfl
  case read => rw [exec_rdigest, State.finalizeEngine_of_open hopen]; rfl

/-! ## The hex characters in numbers -/

/-- Lane `j` of a word as a number (R41, R119). -/
theorem lane_toNat (w : Word) (j : Nat) : (lane w j).toNat = w.toNat / 2 ^ (8 * j) % 256 := by
  rw [lane, BitVec.extractLsb'_toNat, Nat.shiftRight_eq_div_pow]

/-- Digest byte t as a number: byte `t mod 4` of H[t div 4] (R110). -/
theorem digestByte_toNat (H : Accumulator) (t : Fin 16) :
    (digestByte H t).toNat = H[t.val / 4].toNat / 2 ^ (8 * (t.val % 4)) % 256 :=
  lane_toNat _ _

/-- The high nibble of a byte as a number. -/
theorem highNibble_toNat (b : Byte) : (b.extractLsb' 4 4).toNat = b.toNat / 16 := by
  have hb : b.toNat < 256 := b.isLt
  rw [BitVec.extractLsb'_toNat, Nat.shiftRight_eq_div_pow]
  omega

/-- The low nibble of a byte as a number. -/
theorem lowNibble_toNat (b : Byte) : (b.extractLsb' 0 4).toNat = b.toNat % 16 := by
  rw [BitVec.extractLsb'_toNat, Nat.shiftRight_zero]

/-- The code of a hexadecimal digit: 0x30 on for 0 to 9, 0x61 on from 10 (R112). -/
theorem hexchr_toNat (v : BitVec 4) :
    (hexchr v).toNat = if v.toNat ≤ 9 then 0x30 + v.toNat else 0x61 + (v.toNat - 10) := by
  have hv := v.isLt
  unfold hexchr
  split
  next hdecimal => simp only [BitVec.toNat_add, BitVec.toNat_setWidth, BitVec.reduceToNat]; omega
  next hletter => simp only [BitVec.toNat_add, BitVec.toNat_sub, BitVec.toNat_setWidth, BitVec.reduceToNat]; omega

/-- Lane `j` of HEX`k` is character 4k + j of the hex digest (R114). -/
theorem lane_hexWord (H : Accumulator) (k : Fin 8) {j : Nat} (hj : j < 4) :
    lane (hexWord H k) j = hexChar H ⟨4 * k.val + j, by omega⟩ := by
  refine (lane_packLanes_getD [hexChar H ⟨4 * k.val, by omega⟩, hexChar H ⟨4 * k.val + 1, by omega⟩,
    hexChar H ⟨4 * k.val + 2, by omega⟩, hexChar H ⟨4 * k.val + 3, by omega⟩] hj).trans ?_
  interval_cases j <;> rfl

/-- The lane of character 2t of the hex digest holds the code of the high nibble of digest byte t (R113). -/
theorem hexWord_even_toNat {H : Accumulator} {k : Fin 8} {j b : Nat} {t : Fin 16} (hj : j < 4)
    (hp : 4 * k.val + j = 2 * t.val) (hb : (digestByte H t).toNat = b) :
    (hexWord H k).toNat / 2 ^ (8 * j) % 256 = if b / 16 ≤ 9 then 0x30 + b / 16 else 0x61 + (b / 16 - 10) := by
  have ht : (⟨(4 * k.val + j) / 2, by omega⟩ : Fin 16) = t := Fin.ext (Nat.div_eq_of_eq_mul_right two_pos hp)
  have heven : (4 * k.val + j) % 2 = 0 := by omega
  rw [← lane_toNat, lane_hexWord H k hj, hexChar, if_pos heven, ht, hexchr_toNat, highNibble_toNat, hb]

/-- The lane of character 2t + 1 of the hex digest holds the code of the low nibble of digest byte t (R113). -/
theorem hexWord_odd_toNat {H : Accumulator} {k : Fin 8} {j b : Nat} {t : Fin 16} (hj : j < 4)
    (hp : 4 * k.val + j = 2 * t.val + 1) (hb : (digestByte H t).toNat = b) :
    (hexWord H k).toNat / 2 ^ (8 * j) % 256 = if b % 16 ≤ 9 then 0x30 + b % 16 else 0x61 + (b % 16 - 10) := by
  have ht : (⟨(4 * k.val + j) / 2, by omega⟩ : Fin 16) = t := Fin.ext (by simp only [hp]; omega)
  have hodd : ¬(4 * k.val + j) % 2 = 0 := by omega
  rw [← lane_toNat, lane_hexWord H k hj, hexChar, if_neg hodd, ht, hexchr_toNat, lowNibble_toNat, hb]

/-- Settles O32: lane by lane, the character is that of the high or the low nibble of its digest byte. -/
theorem hexReadReturnsCharacters : Obligations.HexReadReturnsCharacters := by
  obtain ⟨-, -, -, -, -, -, -, -, hdecode⟩ := acceptedDescriptorsDecode
  refine ⟨hdecode, fun s k => ⟨_, _, fun hdone => ?done, exec_finalize s, exec_rhex k s, fun j => ?character⟩⟩
  case done => rw [State.finalizeEngine_of_done hdone]; rfl
  case character =>
    intro p byte nibble
    have hbyte : (digestByte s.finalizeEngine.H ⟨p / 2, by omega⟩).toNat = byte := by
      have hword : p / 2 / 4 = p / 8 := Nat.div_div_eq_div_mul p 2 4
      simp only [byte, digestByte_toNat, hword, State.respond_H]
    rcases Nat.mod_two_eq_zero_or_one p with heven | hodd
    · have hnibble : nibble = byte / 16 := if_pos heven
      have hp : p = 2 * (p / 2) := by omega
      rw [hnibble, hexWord_even_toNat j.isLt hp hbyte]
    · have hnibble : nibble = byte % 16 := if_neg (by omega)
      have hp : p = 2 * (p / 2) + 1 := by omega
      rw [hnibble, hexWord_odd_toNat j.isLt hp hbyte]

/-- Settles O33: both reads finalize alike, so the nibbles of the byte that one returns give the characters of the
other. -/
theorem hexIsHexOfDigest : Obligations.HexIsHexOfDigest := by
  intro s t
  have hword := digestByte_toNat s.finalizeEngine.H t
  have hlt := (digestByte s.finalizeEngine.H t).isLt
  generalize hbyte : (digestByte s.finalizeEngine.H t).toNat = byte at hword hlt
  refine ⟨_, _, _, _, byte / 16, byte % 16, exec_rdigest _ s, rfl, exec_rhex _ s, rfl,
    Nat.div_lt_of_lt_mul hlt, Nat.mod_lt _ (by decide), hword.symm.trans (Nat.div_add_mod _ 16).symm, ?high, ?low⟩
  case high =>
    have hlane : 16 * (t.val % 2) = 8 * (2 * (t.val % 2)) := by omega
    have hp : 4 * (t.val / 2) + 2 * (t.val % 2) = 2 * t.val := by omega
    rw [hlane, hexWord_even_toNat (by omega) hp hbyte]
    split <;> omega
  case low =>
    have hlane : 16 * (t.val % 2) + 8 = 8 * (2 * (t.val % 2) + 1) := by omega
    have hp : 4 * (t.val / 2) + (2 * (t.val % 2) + 1) = 2 * t.val + 1 := by omega
    rw [hlane, hexWord_odd_toNat (by omega) hp hbyte]
    split <;> omega

/-! ## Reads that repeat -/

/-- A run in DONE without INIT or reset stays in DONE and keeps `H`, by induction on its steps (R109, R116). -/
theorem run_H_of_done {n : Nat} {s t : State} (hdone : s.finalized = true)
    (hkeep : ∀ input ∈ s.pending.take n, startsInstance input = false)
    (hrun : Host.Core.run Sys2Proof.core n s = .next t) : t.finalized = true ∧ t.H = s.H := by
  induction n generalizing s with
  | zero => cases hrun; exact ⟨hdone, rfl⟩
  | succ n ih =>
    obtain ⟨u, hstep, hpending⟩ := everyInputCompletesInPortOrder s
    have hfirst : ∀ input rest, s.pending = input :: rest → startsInstance input = false := fun input rest hp =>
      hkeep input (by simp [hp])
    have hrest : ∀ input ∈ u.pending.take n, startsInstance input = false := fun input hmem =>
      hkeep input (List.mem_of_mem_tail (by rwa [List.tail_take_eq_take_tail, Nat.add_sub_cancel, ← hpending]))
    obtain ⟨hH, -, -, -, -, hudone⟩ := doneInstanceIsFrozen s u hdone hfirst hstep
    rw [run_succ hstep] at hrun
    obtain ⟨htdone, htH⟩ := ih hudone hrest hrun
    exact ⟨htdone, htH.trans hH⟩

/-- Settles O45: the run keeps `H` and the phase, and in DONE a read answers from `H` alone. -/
theorem digestReadsRepeat : Obligations.DigestReadsRepeat := by
  intro n s t hdone hkeep hrun
  obtain ⟨htdone, hH⟩ := run_H_of_done hdone hkeep hrun
  have hfinalized : s.finalizeEngine.H = t.finalizeEngine.H := by
    rw [State.finalizeEngine_of_done hdone, State.finalizeEngine_of_done htdone, hH]
  refine ⟨fun k => ⟨_, _, exec_rdigest k s, exec_rdigest k t, ?word⟩,
    fun k => ⟨_, _, exec_rhex k s, exec_rhex k t, ?characters⟩⟩
  case word => simp only [State.respond_response, hfinalized]
  case characters => simp only [State.respond_response, hfinalized]

end Sys2Proof.Machine
end

section
/-! SUPPORT. Which transactions the decoder accepts (spec/30_encoding.md R55, spec/60_exceptions.md R127): those of size
4 with one of the eighteen descriptors; every other one is a bus error. -/

namespace Sys2Proof

/-- The descriptors of R55: the writes of CMD and DATA, then the reads of DATA, STATUS, LEN_LO, LEN_HI, DIGEST0..3 and
HEX0..7. -/
def acceptedDescriptors : List Nat :=
  [0x100, 0x104, 0x004, 0x008, 0x00C, 0x010, 0x020, 0x024, 0x028, 0x02C,
    0x040, 0x044, 0x048, 0x04C, 0x050, 0x054, 0x058, 0x05C]

/-- The descriptor of a read is its offset (R54). -/
theorem descriptor_read_toNat (off : BitVec 8) (size : Nat) :
    (Transaction.read off size).descriptor.toNat = off.toNat := by
  rw [Transaction.descriptor, Machine.toNat_append_eq_add]
  exact Nat.zero_add _

/-- The descriptor of a write has bit 8 set beside its offset (R54). -/
theorem descriptor_write_toNat (off : BitVec 8) (size : Nat) (v : Word) :
    (Transaction.write off size v).descriptor.toNat = 0x100 + off.toNat := by
  rw [Transaction.descriptor, Machine.toNat_append_eq_add]
  rfl

/-- Every instruction's transaction has an accepted descriptor (R55). -/
theorem descriptor_encode_mem (i : Instr) : (encode i).descriptor.toNat ∈ acceptedDescriptors := by
  cases i with
  | init | update | finalize | clearErr | wcmd =>
    exact (by decide : 0x100 ∈ acceptedDescriptors)
  | wdata v => exact (by decide : 0x104 ∈ acceptedDescriptors)
  | rdata | rstatus | rlenlo | rlenhi => decide
  | rdigest k =>
    exact (show ∀ k, (encode (.rdigest k)).descriptor.toNat ∈ acceptedDescriptors by decide) k
  | rhex k =>
    exact (show ∀ k, (encode (.rhex k)).descriptor.toNat ∈ acceptedDescriptors by decide) k

/-- Every write of CMD decodes: to a command, or to WCMD (R59). -/
theorem exists_decode_commandWrite (cmd : Word) : ∃ i, decode (commandWrite cmd) = .ok i := by
  rw [decode_commandWrite]
  cases decodeCommand cmd with
  | ok i => exact ⟨i, rfl⟩
  | error code => exact ⟨.wcmd cmd, rfl⟩

/-- The decoder accepts the 4-byte read of each read descriptor. -/
theorem decode_read_isOk_of_mem : ∀ d ∈ acceptedDescriptors, d < 0x100 →
    (decode (.read (BitVec.ofNat 8 d) 4)).isOk = true := by decide

/-- CMD and DATA are the only registers with a write descriptor. -/
theorem writeDescriptor_of_mem : ∀ d ∈ acceptedDescriptors, 0x100 ≤ d → d = 0x100 ∨ d = 0x104 := by decide

/-- A 4-byte access with an accepted descriptor decodes (R55). -/
theorem exists_decode_of_descriptor_mem {x : Transaction} (hsize : x.size = 4)
    (hmem : x.descriptor.toNat ∈ acceptedDescriptors) : ∃ i, decode x = .ok i := by
  cases x with
  | read off size =>
    obtain rfl : size = 4 := hsize
    rw [descriptor_read_toNat] at hmem
    have hok := decode_read_isOk_of_mem off.toNat hmem off.isLt
    rw [BitVec.ofNat_toNat, BitVec.setWidth_eq] at hok
    cases hd : decode (.read off 4) with
    | ok i => exact ⟨i, rfl⟩
    | error c => rw [hd] at hok; cases hok
  | write off size v =>
    obtain rfl : size = 4 := hsize
    rw [descriptor_write_toNat] at hmem
    rcases writeDescriptor_of_mem _ hmem (by omega) with hcmd | hdata
    · obtain rfl : off = 0x00 := BitVec.eq_of_toNat_eq (Nat.add_left_cancel (n := 0x100) hcmd)
      exact exists_decode_commandWrite v
    · obtain rfl : off = 0x04 := BitVec.eq_of_toNat_eq (Nat.add_left_cancel (n := 0x100) hdata)
      exact ⟨.wdata v, rfl⟩

/-- The decoder accepts exactly the 4-byte accesses with an accepted descriptor (R55, R127). -/
theorem exists_decode_iff (x : Transaction) :
    (∃ i, decode x = .ok i) ↔ x.size = 4 ∧ x.descriptor.toNat ∈ acceptedDescriptors := by
  constructor
  · rintro ⟨i, hi⟩
    obtain ⟨-, rfl⟩ := (decode_eq_ok_iff x i).1 hi
    exact ⟨by cases i <;> rfl, descriptor_encode_mem i⟩
  · rintro ⟨hsize, hmem⟩
    exact exists_decode_of_descriptor_mem hsize hmem

/-- Settles O7: what is not accepted has a decoding error, and what is accepted runs its instruction. -/
theorem malformedAccessIsBusError : Obligations.MalformedAccessIsBusError := by
  refine fun s x rest hp => ⟨fun hbad => ?malformed, fun hgood => ?accepted⟩
  case malformed =>
    cases hd : decode x with
    | ok i =>
      obtain ⟨hsize, hmem⟩ := (exists_decode_iff x).1 ⟨i, hd⟩
      exact absurd hbad (not_or.2 ⟨not_not.2 hsize, not_not.2 hmem⟩)
    | error c => exact Machine.step_of_malformed hp hd
  case accepted =>
    obtain ⟨i, hd⟩ := (exists_decode_iff x).2 hgood
    exact ⟨i, hd, Machine.step_of_decoded hp hd⟩

end Sys2Proof
end

section
/-! SUPPORT. The obligations of spec/60_exceptions.md about rejected commands (R121, R123, R125, R126) and the idle core
(R137): what a rejection writes, which error is reported, and which steps write ERR. -/

namespace Sys2Proof.Machine

/-- Settles O8: the idle case of the step. -/
theorem idleStepKeepsState : Obligations.IdleStepKeepsState := fun _ hidle => step_of_nil hidle

/-! ## The effect of a rejection -/

/-- Settles O35: a malformed word and an UPDATE in DONE are both answered by `State.reject`. -/
theorem rejectionWritesOnlyErr : Obligations.RejectionWritesOnlyErr :=
  ⟨fun s _ hnot => exec_wcmd_rejected s hnot, fun _ _ hn hdone => exec_update_done hn hdone⟩

/-- Settles O21: the rejection keeps `H` and the phase, and in DONE the read answers from `H` as it stands. -/
theorem updateInDoneKeepsTheDigest : Obligations.UpdateInDoneKeepsTheDigest := by
  intro s n k hn hdone
  have hrejected : (s.reject .invalidState).finalized = true := hdone
  refine ⟨_, _, exec_update_done hn hdone, rfl, exec_rdigest k _, ?word⟩
  case word => rw [State.respond_response, State.finalizeEngine_of_done hrejected]; rfl

/-! ## The error that is reported -/

/-- The words of UPDATE 0 to UPDATE 4 (R57). -/
def updateWords : List Word := [0x02, 0x12, 0x22, 0x32, 0x42]

/-- The words of UPDATE are those that a well-formed UPDATE encodes to. -/
theorem mem_updateWords_iff (cmd : Word) :
    cmd ∈ updateWords ↔ ∃ n : Fin 8, n.val ≤ 4 ∧ encode (.update n) = commandWrite cmd := by
  constructor
  · intro hmem
    simp only [updateWords, List.mem_cons, List.not_mem_nil, or_false] at hmem
    rcases hmem with rfl | rfl | rfl | rfl | rfl
    exacts [⟨0, by decide⟩, ⟨1, by decide⟩, ⟨2, by decide⟩, ⟨3, by decide⟩, ⟨4, by decide⟩]
  · rintro ⟨n, hn, hword⟩
    obtain rfl : (0x00000002 ||| BitVec.ofNat 32 n.val <<< 4 : Word) = cmd := by
      simpa [encode, commandWrite] using hword
    exact (show ∀ n : Fin 8, n.val ≤ 4 → (0x00000002 ||| BitVec.ofNat 32 n.val <<< 4 : Word) ∈ updateWords by
      decide) n hn

/-- A step that takes a malformed command word rejects it by its form, in either phase (R125). -/
theorem step_of_malformedWord {s : State} {cmd : Word} {rest : List HostInput}
    (hp : s.pending = .transaction (commandWrite cmd) :: rest) (hnot : cmd ∉ commandWords) :
    step s = .next (({ s with pending := rest } : State).reject
      (if cmd.toNat % 16 = 2 then .invalidInputType else .illegalCommand)) := by
  rw [step_of_decoded hp (decode_commandWrite_of_not_mem cmd hnot), exec_wcmd_rejected _ hnot]

/-- A step that takes a word of UPDATE in DONE rejects it by the phase (R123, R125). -/
theorem step_of_updateInDone {s : State} {cmd : Word} {rest : List HostInput}
    (hp : s.pending = .transaction (commandWrite cmd) :: rest) (hmem : cmd ∈ updateWords)
    (hdone : s.finalized = true) :
    step s = .next (({ s with pending := rest } : State).reject .invalidState) := by
  obtain ⟨n, hn, hword⟩ := (mem_updateWords_iff cmd).1 hmem
  rw [← hword] at hp
  rw [step_of_encode hp (decide_eq_true hn)]
  exact exec_update_done hn hdone

/-- Settles O37: one clause for each of the three steps that report an error. -/
theorem errorsAreReportedInOrder : Obligations.ErrorsAreReportedInOrder :=
  ⟨fun _ _ _ _ hp hd => ⟨_, step_of_malformed hp hd, rfl, rfl⟩,
    fun _ _ _ hp hnot => ⟨_, step_of_malformedWord hp hnot, rfl, rfl⟩,
    fun _ _ _ hp hmem hdone => ⟨_, step_of_updateInDone hp hmem hdone, rfl, rfl⟩⟩

/-! ## The steps that write ERR -/

/-- Reset, INIT and CLEAR_ERR clear ERR (R21, R130). -/
theorem step_ERR_of_clearsError {s t : State} {input : HostInput} {rest : List HostInput}
    (hp : s.pending = input :: rest) (hs : step s = .next t) (hclear : clearsError input = true) :
    t.ERR = .none := by
  cases input with
  | transaction x =>
    obtain rfl | rfl : x = encode .init ∨ x = encode .clearErr := by
      simpa [clearsError, startsInstance] using hclear
    · rw [step_of_encode hp rfl, exec_init] at hs; cases hs; rfl
    · rw [step_of_encode hp rfl, exec_clearErr] at hs; cases hs; rfl
  | reset => rw [step_of_reset hp] at hs; cases hs; rfl
  | resetDuring x => rw [step_of_resetDuring hp] at hs; cases hs; rfl

/-- An instruction that neither clears ERR nor is rejected keeps it (R126). -/
theorem ExecEffect.ERR_eq {i : Instr} {s t : State} (he : ExecEffect i s t) (hw : wellFormed i = true)
    (hinit : i ≠ .init) (hclear : i ≠ .clearErr) (hword : ∀ cmd, i = .wcmd cmd → cmd ∈ commandWords)
    (hupdate : ∀ n, i = .update n → s.finalized = false) : t.ERR = s.ERR := by
  cases he with
  | newEngine hi => exact absurd hi hinit
  | clearError hi => exact absurd hi hclear
  | updateInDone n hi hn hdone => rw [hupdate n hi] at hdone; cases hdone
  | updateMalformed n hi hn =>
    subst hi
    exact absurd (of_decide_eq_true hw) (by omega)
  | commandMalformed cmd hi hc => exact absurd (hword cmd hi) hc
  | command cmd j t hi hj => exact absurd hj (decodeCommand_ne_ok_of_wellFormed (hi ▸ hw) j)
  | plainRead | dataWrite | finalize | updateAccepted => simp

/-- Every other input leaves ERR unchanged: bus errors, reads, data writes and the accepted commands (R126). -/
theorem step_ERR_eq {s t : State} {input : HostInput} {rest : List HostInput} (hp : s.pending = input :: rest)
    (hs : step s = .next t) (hclear : clearsError input = false)
    (haccepted : ∀ cmd, input = .transaction (commandWrite cmd) →
      cmd ∈ commandWords ∧ (cmd ∈ updateWords → s.finalized = false)) : t.ERR = s.ERR := by
  cases stepEffect_of_next hs with
  | idle | busError => rfl
  | instr hp' hw hx =>
    cases hp.symm.trans hp'
    refine (execEffect_of_next hx).ERR_eq hw ?notInit ?notClearErr ?wordAccepted ?updateInOpen
    case notInit => rintro rfl; exact absurd hclear (by decide)
    case notClearErr => rintro rfl; exact absurd hclear (by decide)
    case wordAccepted => rintro cmd rfl; exact (haccepted cmd rfl).1
    case updateInOpen =>
      rintro n rfl
      exact (haccepted _ rfl).2 ((mem_updateWords_iff _).2 ⟨n, of_decide_eq_true hw, rfl⟩)
  | reset hp' | resetDuring hp' => cases hp.symm.trans hp'; cases hclear

/-- Settles O38: the two rejections, the inputs that clear ERR, and the frame of every other input. -/
theorem errKeepsTheLatestRejection : Obligations.ErrKeepsTheLatestRejection := by
  refine fun s t input rest hp hs => ⟨?malformedWord, ?updateInDone, step_ERR_of_clearsError hp hs,
    step_ERR_eq hp hs⟩
  case malformedWord =>
    rintro cmd rfl hnot
    rw [step_of_malformedWord hp hnot] at hs
    cases hs; rfl
  case updateInDone =>
    rintro cmd rfl hmem hdone
    rw [step_of_updateInDone hp hmem hdone] at hs
    cases hs; rfl

end Sys2Proof.Machine
end

section
/-! SUPPORT. The platform of independent cores (spec/60_exceptions.md R135, spec/20_memory.md R46): a step and a bus
access each touch one core, the access that whose window holds its address. -/

namespace Sys2Proof.Machine

/-! ## A step of one core -/

/-- The step of core `k` on the platform replaces that core by its own next state. -/
theorem Platform.stepCore_of_next {p : Platform} {k : Nat} {s t : State} (hk : p.cores[k]? = some s)
    (hs : step s = .next t) : p.stepCore k = .next { cores := p.cores.set k t } := by
  simp [Platform.stepCore, hk, hs]

/-- Settles O55: every core steps on, and replacing one core of the list leaves the others. -/
theorem coresShareNoState : Obligations.CoresShareNoState := by
  refine ⟨?hasCore, fun p k s hk => ?step⟩
  case hasCore => simp [Platform.reset, Config.nInstances]
  case step =>
    obtain ⟨t, hs, -⟩ := everyInputCompletesInPortOrder s
    obtain ⟨hlt, -⟩ := List.getElem?_eq_some_iff.1 hk
    exact ⟨_, t, Platform.stepCore_of_next hk hs, hs, List.getElem?_set_self hlt,
      fun j hj => List.getElem?_set_ne hj.symm⟩

/-! ## The routing of an access -/

/-- No two cores have the same CORE_BASE. -/
theorem coreBase_injective : Function.Injective Config.coreBase := fun _ _ hbase =>
  coreBaseIndex_strictMono.injective (Nat.eq_of_mul_eq_mul_left (by decide) hbase)

/-- No bus address lies in the windows of two cores: its page is the base of one core at most. -/
theorem core_eq_of_offsetOfAddress {j k address : Nat} {o o' : BitVec 8}
    (hj : offsetOfAddress j address = some o) (hk : offsetOfAddress k address = some o') : j = k := by
  have hpageJ := (offsetOfAddress_isSome j address).1 (by rw [hj]; rfl)
  have hpageK := (offsetOfAddress_isSome k address).1 (by rw [hk]; rfl)
  exact coreBaseIndex_strictMono.injective (hpageJ.symm.trans hpageK)

/-- An address in the window of a core of the platform is routed to that core, at its offset. -/
theorem Platform.coreAt_of_offset {p : Platform} {address k : Nat} {off : BitVec 8} (hk : k < p.cores.length)
    (hoff : offsetOfAddress k address = some off) : p.coreAt address = some (k, off) := by
  cases hat : p.coreAt address with
  | none => rw [Platform.coreAt_none.1 hat k hk] at hoff; cases hoff
  | some target =>
    obtain ⟨j, o⟩ := target
    obtain ⟨-, ho⟩ := Platform.coreAt_some hat
    obtain rfl := core_eq_of_offsetOfAddress ho hoff
    rw [ho] at hoff
    cases hoff; rfl

/-- An access routed to a core gives that core one more input. -/
theorem Platform.access_of_coreAt {p : Platform} {a : BusAccess} {k : Nat} {off : BitVec 8}
    (hat : p.coreAt a.address = some (k, off)) :
    p.access a = { cores := p.cores.modify k fun s => s.submit [.transaction (a.atOffset off)] } := by
  simp [Platform.access, hat]

/-- An access routed to no core changes nothing. -/
theorem Platform.access_of_coreAt_none {p : Platform} {a : BusAccess} (hat : p.coreAt a.address = none) :
    p.access a = p := by
  simp [Platform.access, hat]

/-- Settles O56: the windows are disjoint, so the routing finds the one core whose window holds the address. -/
theorem accessReachesItsOwnCore : Obligations.AccessReachesItsOwnCore := by
  refine ⟨fun _ _ hne => coreBase_injective.ne hne, fun _ _ _ _ _ => core_eq_of_offsetOfAddress,
    fun p a k s off hk haddress => ?inWindow,
    fun p a hout => Platform.access_of_coreAt_none (Platform.coreAt_none.2 hout)⟩
  case inWindow =>
    obtain ⟨hlt, -⟩ := List.getElem?_eq_some_iff.1 hk
    have hoff := (offsetOfAddress_eq_some_iff k a.address off).2 haddress
    rw [Platform.access_of_coreAt (Platform.coreAt_of_offset hlt hoff)]
    refine ⟨?own, fun j hj => ?other⟩
    case own => rw [List.getElem?_modify_eq, hk]; rfl
    case other => exact List.getElem?_modify_ne _ _ hj.symm

end Sys2Proof.Machine
end

section
/-! SUPPORT. The obligations of spec/70_reset_and_hazards.md: what reset leaves (R138, R139, R141), the digest of the
empty message (R140), and what a run that ends with ERR = 0 says of its commands (R147). -/

namespace Sys2Proof.Machine

/-! ## Runs that end with ERR = 0 -/

/-- A step that neither clears ERR nor leaves an error was taken with ERR = 0: a rejection writes a code of its own and
every other step keeps ERR (R126). -/
theorem ERR_eq_none_of_step {s t : State} (hs : step s = .next t)
    (hkeep : ∀ input rest, s.pending = input :: rest → clearsError input = false) (ht : t.ERR = .none) :
    s.ERR = .none := by
  cases hp : s.pending with
  | nil =>
    rw [step_of_nil hp] at hs
    cases hs; exact ht
  | cons input rest =>
    refine (step_ERR_eq hp hs (hkeep input rest hp) ?accepted).symm.trans ht
    rintro cmd rfl
    refine ⟨by_contra fun hnot => ?malformedWord, fun hmem => Bool.eq_false_iff.2 fun hdone => ?updateInDone⟩
    case malformedWord =>
      rw [step_of_malformedWord hp hnot] at hs
      cases hs
      rw [State.reject_ERR] at ht
      split at ht <;> cases ht
    case updateInDone =>
      rw [step_of_updateInDone hp hmem hdone] at hs
      cases hs; cases ht

/-- When a run without INIT, CLEAR_ERR or reset ends with ERR = 0, so does each shorter run from the same state, by
induction on its steps. -/
theorem ERR_eq_none_of_run {k : Nat} {s u : State} (hrun : Host.Core.run Sys2Proof.core k s = .next u)
    (hu : u.ERR = .none) (hkeep : ∀ input ∈ s.pending.take k, clearsError input = false) :
    ∀ {j : Nat} {t : State}, j ≤ k → Host.Core.run Sys2Proof.core j s = .next t → t.ERR = .none := by
  induction k generalizing s with
  | zero =>
    intro j t hj ht
    obtain rfl := Nat.le_zero.1 hj
    cases hrun; cases ht; exact hu
  | succ k ih =>
    obtain ⟨v, hstep, hpending⟩ := everyInputCompletesInPortOrder s
    have htail : v.pending.take k = (s.pending.take (k + 1)).tail := by
      rw [hpending, List.tail_take_eq_take_tail, Nat.add_sub_cancel]
    have hrest : ∀ input ∈ v.pending.take k, clearsError input = false := fun input hmem =>
      hkeep input (List.mem_of_mem_tail (htail ▸ hmem))
    have hlater := @ih v ((run_succ hstep).symm.trans hrun) hrest
    intro j t hj ht
    cases j with
    | zero =>
      cases ht
      exact ERR_eq_none_of_step hstep (fun input rest hp => hkeep input (by simp [hp]))
        (hlater (Nat.zero_le k) (run_zero v))
    | succ j => exact hlater (Nat.le_of_succ_le_succ hj) ((run_succ hstep).symm.trans ht)

/-- A safe run ends in a state with ERR = 0 (R147). -/
theorem exists_run_of_safeRun {k : Nat} {s : State} (h : safeRun k s = true) :
    ∃ u, Host.Core.run Sys2Proof.core k s = .next u ∧ u.ERR = .none := by
  unfold safeRun at h
  split at h
  next u hrun => exact ⟨u, hrun, by simpa using (Bool.and_eq_true_iff.1 h).2⟩
  all_goals simp at h

/-- Settles O39: ERR = 0 at the end of the run goes back step by step to each state of it. -/
theorem safeRunRejectedNothing : Obligations.SafeRunRejectedNothing := by
  intro s k hsafe _ hkeep j t
  obtain ⟨u, hrun, hu⟩ := exists_run_of_safeRun hsafe
  exact ERR_eq_none_of_run hrun hu hkeep

/-! ## The reset values -/

/-- A reset core is in OPEN and holds the empty message (R138). -/
theorem represents_applyReset (s : State) : Represents s.applyReset [] :=
  represents_empty s.applyReset_H s.applyReset_bufLen s.applyReset_bitLen s.applyReset_lenOvf s.applyReset_finalized

/-- A new engine is in OPEN and holds the empty message (R65). -/
theorem represents_newEngine (s : State) : Represents s.newEngine [] :=
  represents_empty s.newEngine_H s.newEngine_bufLen s.newEngine_bitLen s.newEngine_lenOvf s.newEngine_finalized

/-- STATUS reads 0 when every field of it is 0 (R28). -/
theorem statusWord_eq_zero {s : State} (hb : s.bufLen = 0) (he : s.ERR = .none) (hl : s.lenOvf = false)
    (hf : s.finalized = false) : statusWord s = 0 := by
  rw [statusWord, hb, he, hl, hf]
  rfl

/-- Settles O11: the reset step and the fields of `State.applyReset`. -/
theorem resetEventGivesResetValues : Obligations.ResetEventGivesResetValues := fun _ _ hp =>
  ⟨_, step_of_reset hp, rfl, rfl, rfl, rfl, rfl, rfl, rfl, rfl,
    statusWord_eq_zero rfl rfl rfl rfl, represents_applyReset _⟩

/-- But for the response, reset during a transaction is reset, whatever the transaction (R141). -/
theorem State.interruptByReset_erased (s : State) (x : Transaction) :
    { s.interruptByReset x with response := .noneYet } = s.applyReset := rfl

/-- A state cannot be told apart from itself. -/
theorem Indistinguishable.refl (s : State) : Indistinguishable s s :=
  ⟨rfl, fun _ _ => rfl, rfl, rfl, rfl, rfl, rfl, rfl, rfl, rfl⟩

/-- Settles O12: with the response erased, every transaction leaves the one state of `State.applyReset`. -/
theorem resetDuringTransactionGivesResetValues : Obligations.ResetDuringTransactionGivesResetValues := by
  refine fun s x rest hp => ⟨_, step_of_resetDuring hp, rfl, rfl, rfl, rfl, rfl, rfl, rfl, rfl, fun y =>
    ⟨_, step_of_resetDuring rfl, ?erased⟩⟩
  case erased =>
    rw [State.interruptByReset_erased, State.interruptByReset_erased]
    exact Indistinguishable.refl _

/-- Settles O13: `State.applyReset` and `State.newEngine` field by field. -/
theorem resetAndInitDifferInData : Obligations.ResetAndInitDifferInData := by
  intro s rest
  have hreset : step { s with pending := .reset :: rest } = .next { s with pending := rest }.applyReset :=
    step_of_reset rfl
  have hinit : step { s with pending := .transaction (encode .init) :: rest } =
      .next ({ s with pending := rest }.newEngine.respond .writeDone) :=
    (step_of_encode rfl rfl).trans (exec_init _)
  exact ⟨_, _, hreset, hinit, rfl, rfl, rfl, rfl, rfl, rfl, rfl, rfl, rfl⟩

/-! ## The digest of the empty message -/

/-- The digest of the empty message (R140), computed by the kernel from its one padded block. -/
theorem digestWords_nil :
    digestWords [] = #v[0xd98c1dd4, 0x04b2008f, 0x980980e9, 0x7e42f8ec] := by decide +kernel

/-- Its hex text, "d41d8cd98f00b204e9800998ecf8427e", in eight words (R140). -/
theorem hexWord_digestWords_nil (k : Fin 8) :
    hexWord (digestWords []) k = #v[(0x64313464 : Word), 0x39646338, 0x30306638, 0x34303262, 0x30383965, 0x38393930,
      0x38666365, 0x65373234][k] := by
  rw [digestWords_nil]
  revert k
  decide

/-- Settles O34: INIT and reset leave the empty message, and both reads finalize it. -/
theorem emptyMessageDigest : Obligations.EmptyMessageDigest := by
  intro s t hstart
  have hempty : Represents t [] := by
    obtain hinit | ⟨⟨rest, hp⟩, hreset⟩ := hstart
    · cases hinit
      exact (represents_newEngine s).respond _
    · rw [step_of_reset hp] at hreset
      cases hreset
      exact represents_applyReset _
  have hH : t.finalizeEngine.H = digestWords [] := hempty.finalizeEngine_H
  refine ⟨fun k => ⟨_, exec_rdigest k t, t.finalizeEngine_finalized, ?word⟩,
    fun k => ⟨_, exec_rhex k t, t.finalizeEngine_finalized, ?characters⟩⟩
  case word => rw [State.respond_response, hH, digestWords_nil]
  case characters => rw [State.respond_response, hH, hexWord_digestWords_nil]

end Sys2Proof.Machine
end
